-- ==== Sys2Proof/Word.lean ====
section
/-! DEFINITION. The byte and the 16-bit word (`00_scope.md` section 4 and R9). -/

namespace Sys2Proof

/-- A stream byte: 8 bits (`00_scope.md` section 4). -/
abbrev Byte := BitVec 8

/-- A 16-bit pattern: a direct address, a displacement pattern or an immediate value. -/
abbrev Word16 := BitVec 16

end Sys2Proof
end

