-- ==== Sys2Proof/Config.lean ====
section
/-! DEFINITION. The constants of the hardware. There is "no configuration surface" (`00_scope.md` R7) and the
spec leaves no value free, so no constant here is an uninterpreted one. -/

namespace Sys2Proof

/-- The most bytes one instruction has (`30_encoding.md` R70), and so the most one step reads
(`47_driver_and_output.md` R173). -/
def Config.maxLength : Nat := 6

/-- The fewest bytes one instruction has (`30_encoding.md` R70). -/
def Config.minLength : Nat := 2

/-- What an index of the stream reads as when the sparse list of cells does not name it (log entry 1):
the list leaves out exactly the bytes of this value. -/
def Config.unlistedByte : Byte := 0

/-- The length of the stream in `State.reset`. DESIGN CHOICE (log entry 2, unsafe): `LEN` is an input of the
machine that reset does not set (`10_state.md` R36). -/
def Config.resetLen : Nat := 0

end Sys2Proof
end

