-- ==== Sys2Proof/Syntax.lean ====
section
/-! DEFINITION. What goes into the decoder and what comes out. `Instr` is an encoded instruction, one constructor
for each row of the opcode table, with the fields its bytes hold; `Instruction` is the decoded value of `10_state.md` R32,
made of the value types of R28 to R31. The stages and kinds of an error stand here too, because the decoder names
them. -/

namespace Sys2Proof

/-- The meaning of the `w` bit (`10_state.md` R28). -/
inductive Width where
  | byte
  | word
  deriving DecidableEq, Repr

/-- The sixteen registers the decoder can name (`10_state.md` R21, R29). It knows of no relation between a byte register and a
word register (log entry 17). -/
inductive RegisterName where
  | al | cl | dl | bl | ah | ch | dh | bh
  | ax | cx | dx | bx | sp | bp | si | di
  deriving DecidableEq, Repr

/-- A memory operand (`10_state.md` R30). The displacement is a signed number; `some 0` and `none` differ. -/
structure MemoryOperand where
  components    : List RegisterName
  displacement  : Option Int
  directAddress : Option Word16
  deriving DecidableEq, Repr

/-- An operand (`10_state.md` R31). An immediate's value is the unsigned 16-bit pattern. -/
inductive Operand where
  | register (r : RegisterName)
  | memory (m : MemoryOperand)
  | immediate (value : Word16) (width : Width)
  deriving DecidableEq, Repr

/-- The mnemonic, "MOV" and nothing else (`10_state.md` R32). -/
inductive Mnemonic where
  | mov
  deriving DecidableEq, Repr

/-- A decoded instruction (`10_state.md` R32), the value the decoder emits. -/
structure Instruction where
  mnemonic    : Mnemonic
  destination : Operand
  source      : Operand
  deriving DecidableEq, Repr

/-- The part of a decode in which an error arises (`60_exceptions.md` R204). -/
inductive Stage where
  | classify
  | modrm
  | displacement
  | address
  | immediate
  deriving DecidableEq, Repr

/-- The three kinds of error (`60_exceptions.md` R201, R202, R203). -/
inductive ErrorKind where
  | truncatedStream
  | unsupportedOpcode
  | invalidFieldCombination
  deriving DecidableEq, Repr

/-- The five formats the classifier tells apart (`42_opcode_classifier.md` R120). -/
inductive Format where
  | immReg
  | rmReg
  | immRm
  | memAcc
  | accMem
  deriving DecidableEq, Repr

/-- What the `mod` and `rm` fields of an addressing byte select, with the displacement or address bytes that follow it
(`30_encoding.md` R67). -/
inductive RmField where
  /-- `mod = 3`: a register code. -/
  | register (code : BitVec 3)
  /-- `mod = 0`, `rm` not 6: a table entry, no displacement. -/
  | indirect (rm : BitVec 3)
  /-- `mod = 0`, `rm = 6`: a direct address of two bytes. -/
  | direct (addr : Word16)
  /-- `mod = 1`: a table entry and one displacement byte. -/
  | disp8 (rm : BitVec 3) (disp : Byte)
  /-- `mod = 2`: a table entry and two displacement bytes. -/
  | disp16 (rm : BitVec 3) (disp : Word16)
  deriving DecidableEq, Repr

/-- The rows of `spec/opcode_table.json`, each with the fields its encoding holds. -/
inductive Instr where
  /-- `88`: `MOV r/m8, r8` (`43_mov_rm_reg.md` R131). -/
  | movRm8R8 (reg : BitVec 3) (rm : RmField)
  /-- `89`: `MOV r/m16, r16` (R132). -/
  | movRm16R16 (reg : BitVec 3) (rm : RmField)
  /-- `8A`: `MOV r8, r/m8` (R133). -/
  | movR8Rm8 (reg : BitVec 3) (rm : RmField)
  /-- `8B`: `MOV r16, r/m16` (R134). -/
  | movR16Rm16 (reg : BitVec 3) (rm : RmField)
  /-- `B0..B7`: `MOV r8, imm8` (`44_mov_imm_reg.md` R141). -/
  | movR8Imm8 (reg : BitVec 3) (imm : Byte)
  /-- `B8..BF`: `MOV r16, imm16` (R142). -/
  | movR16Imm16 (reg : BitVec 3) (imm : Word16)
  /-- `C6` with `reg = 000`: `MOV r/m8, imm8` (`45_mov_imm_rm.md` R151). -/
  | movRm8Imm8 (rm : RmField) (imm : Byte)
  /-- `C7` with `reg = 000`: `MOV r/m16, imm16` (R152). -/
  | movRm16Imm16 (rm : RmField) (imm : Word16)
  /-- `A0`: `MOV AL, [addr]` (`46_mov_acc_mem.md` R160). -/
  | movAlAddr (addr : Word16)
  /-- `A1`: `MOV AX, [addr]` (R161). -/
  | movAxAddr (addr : Word16)
  /-- `A2`: `MOV [addr], AL` (R162). -/
  | movAddrAl (addr : Word16)
  /-- `A3`: `MOV [addr], AX` (R163). -/
  | movAddrAx (addr : Word16)
  /-- The table's last row, a first byte that no pattern matches (`60_exceptions.md` R202; log entry 13). -/
  | unsupportedFirstByte (byte : Byte)
  deriving DecidableEq, Repr

end Sys2Proof
end

