-- ==== Sys2Proof/Machine/State.lean ====
section
/-! DEFINITION. The state of the machine: the four pieces of `10_state.md` R25 and the two inputs `S` and `LEN` of
`00_scope.md` R7, all plain data; the fault and refusal names; the state after reset. -/

namespace Sys2Proof.Machine

/-- The stream's bytes as a sparse list: addresses strictly rising, no entry of the value `Config.unlistedByte`, so that equal
streams are equal lists (log entry 1). -/
abbrev Memory := List Host.Cell

/-- The driver state (`10_state.md` R23; `failed` is the spec's name for the halt, log entry 4). -/
inductive DriverState where
  | reading
  | done
  | failed
  deriving DecidableEq, Repr

/-- The error record (`10_state.md` R24; its content is `60_exceptions.md` R201 to R204, log entry 7). -/
structure ErrorRecord where
  kind   : ErrorKind
  offset : Nat
  byte   : Byte
  stage  : Stage
  deriving DecidableEq, Repr

/-- One entry of `OUT` (`10_state.md` R26): the offset an instruction was decoded at, its length and its value. -/
structure Emitted where
  offset : Nat
  length : Nat
  instr  : Instruction
  deriving DecidableEq, Repr

/-- The state (`10_state.md` R25, R27). -/
structure State where
  /-- The instruction stream `S` (`20_memory.md` R40): an input that no step changes. -/
  mem : Memory
  /-- `LEN`, the number of bytes of the stream: an input that no step changes. -/
  len : Nat
  /-- The cursor (`10_state.md` R22), the program counter. -/
  pos : Nat
  /-- The driver state (`10_state.md` R23). -/
  st  : DriverState
  /-- The error record (`10_state.md` R24). -/
  err : Option ErrorRecord
  /-- The output history (`10_state.md` R26), oldest entry first. -/
  out : List Emitted
  deriving DecidableEq, Repr

/-- Why the model stops without a next state. -/
inductive Fault where
  /-- A byte was asked for at an index of no stream byte where the spec says byte 1 exists (`20_memory.md` R41, R47). Raised by
  `Sys2Proof.Machine.step` and by a meaning when the cursor stands at or beyond the end of the stream; `10_state.md` R22 rules
  the case out and no run reaches it. Safe (log entry 11). -/
  | readOutsideStream
  deriving DecidableEq, Repr

/-- Why the model gives no meaning. -/
inductive Refusal where
  /-- Raised only by `exec`, for an instruction that has no meaning yet. Safe. No instruction is left so. -/
  | notModelled (mnemonic : String)
  deriving DecidableEq, Repr

/-- The state after reset (`10_state.md` R36). The inputs, which reset does not set, are the empty stream (log entry 2). -/
def State.reset : State :=
  { mem := [], len := Config.resetLen, pos := 0, st := .reading, err := none, out := [] }

end Sys2Proof.Machine
end

