-- ==== Sys2Proof/Machine/Flags.lean ====
section
/-! DEFINITION. The hardware has no flags and no condition codes (`10_state.md` R34): "the decoder keeps no status bits other
than `st` and `err`". This file holds the operations on those two. -/

namespace Sys2Proof.Machine

/-- The number of an error kind (`60_exceptions.md` R201 to R203; the numbers are the spec's own, log entry 7). -/
def errorCode : ErrorKind → Nat
  | .truncatedStream => 1
  | .unsupportedOpcode => 2
  | .invalidFieldCombination => 3

/-- `st <- Done` (`47_driver_and_output.md` R177). -/
def State.setDone (s : State) : State := { s with st := .done }

/-- `st <- Failed`, `err <- Some(e)` and nothing else (`47_driver_and_output.md` R178, `60_exceptions.md` R208). -/
def State.setFailed (s : State) (e : ErrorRecord) : State := { s with st := .failed, err := some e }

/-- `Done` and `Failed` are the absorbing states (`47_driver_and_output.md` R179). -/
def State.halted (s : State) : Bool :=
  match s.st with
  | .reading => false
  | .done => true
  | .failed => true

end Sys2Proof.Machine
end

