-- ==== Sys2Proof/WellFormed.lean ====
section
/-! DEFINITION. Which terms of `Instr` stand for an encoding. Two things the types do not say are checked: `mod = 0` with
`rm = 6` is the direct-address form (`40_bitfield_and_tables.md` R99), and the table's last row holds only the first
bytes of `30_encoding.md` R72. -/

namespace Sys2Proof

/-- `mod = 0` with `rm = 6` is no table entry without displacement (`40_bitfield_and_tables.md` R99). -/
def RmField.wf : RmField → Bool
  | .register _ => true
  | .indirect rm => rm != 6
  | .direct _ => true
  | .disp8 _ _ => true
  | .disp16 _ _ => true

/-- The 230 unsupported first bytes, by the five ranges of `30_encoding.md` R72. -/
def inUnsupportedRange (b : Byte) : Bool :=
  b ≤ 0x87 || (0x8C ≤ b && b ≤ 0x9F) || (0xA4 ≤ b && b ≤ 0xAF) || (0xC0 ≤ b && b ≤ 0xC5) || 0xC8 ≤ b

/-- The terms that stand for an encoding. -/
def Instr.wf : Instr → Bool
  | .movRm8R8 _ rm => rm.wf
  | .movRm16R16 _ rm => rm.wf
  | .movR8Rm8 _ rm => rm.wf
  | .movR16Rm16 _ rm => rm.wf
  | .movR8Imm8 _ _ => true
  | .movR16Imm16 _ _ => true
  | .movRm8Imm8 rm _ => rm.wf
  | .movRm16Imm16 rm _ => rm.wf
  | .movAlAddr _ => true
  | .movAxAddr _ => true
  | .movAddrAl _ => true
  | .movAddrAx _ => true
  | .unsupportedFirstByte b => inUnsupportedRange b

end Sys2Proof
end

