-- ==== Sys2Proof/Decode.lean ====
section
/-! DEFINITION. From bytes to `Instr` and back: BitField (`40_bitfield_and_tables.md` section 1), OpcodeClassifier
(`42_opcode_classifier.md`), and the part of the InstructionDecoder and the OperandDecoder that reads bytes
(`47_driver_and_output.md` section 1, `41_operand_decoder.md`). The decoder is total on any list of bytes, reads each byte only when the
format needs it (`47_driver_and_output.md` R172) and names the error when it refuses. After it, the encoder. -/

namespace Sys2Proof

/-! ## Byte order -/

/-- `{hi, lo}` of `00_scope.md` R9: `hi` in bits 15..8, `lo` in bits 7..0. -/
def joinBytes (hi lo : Byte) : Word16 := hi ++ lo

/-- Bits 7..0, the byte at the lower stream index (`20_memory.md` R44). -/
def lowByte (w : Word16) : Byte := w.extractLsb' 0 8

/-- Bits 15..8, the byte at the higher stream index (`20_memory.md` R44). -/
def highByte (w : Word16) : Byte := w.extractLsb' 8 8

/-! ## BitField -/

/-- `extract` of `40_bitfield_and_tables.md` R90: the `width` bits from source position `first` on, position 1 being the most
significant. The proof argument is R91's domain, so that a call outside it cannot be written (log entry 15). -/
def extract (b : Byte) (first width : Nat) (_domain : 1 ≤ first ∧ 1 ≤ width ∧ first + width - 1 ≤ 8 := by decide) :
    BitVec width :=
  b.extractLsb' (8 - (first + width - 1)) width

/-! ## OpcodeClassifier -/

/-- `classify` of `42_opcode_classifier.md` R125, the tests in the order of R121. `none` is its Unsupported. -/
def classify (b1 : Byte) : Option Format :=
  if extract b1 1 4 = 0b1011#4 then some .immReg
  else if extract b1 1 6 = 0b100010#6 then some .rmReg
  else if extract b1 1 7 = 0b1100011#7 then some .immRm
  else if extract b1 1 7 = 0b1010000#7 then some .memAcc
  else if extract b1 1 7 = 0b1010001#7 then some .accMem
  else none

/-! ## Reading bytes -/

/-- Why a list of bytes is refused. Each is named after the error the driver takes for it (`60_exceptions.md` R201, R203). -/
inductive DecodeError where
  /-- There is no byte 1: the decoder is not called so (`47_driver_and_output.md` R170). -/
  | noByte
  /-- A byte the classified format needs is missing (`60_exceptions.md` R201). -/
  | truncatedStream (stage : Stage)
  /-- A forbidden combination of fields (`60_exceptions.md` R203). -/
  | invalidFieldCombination (stage : Stage)
  deriving DecidableEq, Repr

/-- What was read, with the bytes after it; or why it was refused. -/
abbrev Parsed (α : Type) := Except DecodeError (α × List Byte)

/-- `take(1, stage)` of `41_operand_decoder.md` R106. -/
def takeByte (stage : Stage) : List Byte → Parsed Byte
  | [] => .error (.truncatedStream stage)
  | b :: rest => .ok (b, rest)

/-- `take(2, stage)` of `41_operand_decoder.md` R106, assembled low byte first (`20_memory.md` R44). -/
def takeWord (stage : Stage) : List Byte → Parsed Word16
  | [] => .error (.truncatedStream stage)
  | [_] => .error (.truncatedStream stage)
  | lo :: hi :: rest => .ok (joinBytes hi lo, rest)

/-- What follows a successful read; a `raise` ends the decode at once (`60_exceptions.md` R200). -/
def Parsed.andThen {α β : Type} (p : Parsed α) (k : α → List Byte → Parsed β) : Parsed β :=
  match p with
  | .ok (a, rest) => k a rest
  | .error e => .error e

/-- The reading side of `rm_operand` (`41_operand_decoder.md` R114): the tests in its order. -/
def decodeRm (mod : BitVec 2) (rm : BitVec 3) (bytes : List Byte) : Parsed RmField :=
  if mod = 3 then .ok (.register rm, bytes)
  else if mod = 0 ∧ rm = 6 then
    Parsed.andThen (takeWord .address bytes) fun addr rest => .ok (.direct addr, rest)
  else if mod = 0 then .ok (.indirect rm, bytes)
  else if mod = 1 then
    Parsed.andThen (takeByte .displacement bytes) fun d rest => .ok (.disp8 rm d, rest)
  else
    Parsed.andThen (takeWord .displacement bytes) fun d rest => .ok (.disp16 rm d, rest)

/-- Which RM_REG instruction the bits `d` and `w` select (`30_encoding.md` R61). -/
def rmRegInstr (d w : BitVec 1) (reg : BitVec 3) (rm : RmField) : Instr :=
  if d = 1 then
    if w = 1 then .movR16Rm16 reg rm else .movR8Rm8 reg rm
  else
    if w = 1 then .movRm16R16 reg rm else .movRm8R8 reg rm

/-- The reading side of `decode_rm_reg` (`43_mov_rm_reg.md` R130). -/
def decodeRmReg (b1 : Byte) (bytes : List Byte) : Parsed Instr :=
  Parsed.andThen (takeByte .modrm bytes) fun b2 rest =>
    Parsed.andThen (decodeRm (extract b2 1 2) (extract b2 6 3) rest) fun rm rest =>
      .ok (rmRegInstr (extract b1 7 1) (extract b1 8 1) (extract b2 3 3) rm, rest)

/-- The reading side of `decode_imm_reg` (`44_mov_imm_reg.md` R140): `w` at source position 5, `reg` at 6 to 8. -/
def decodeImmReg (b1 : Byte) (bytes : List Byte) : Parsed Instr :=
  if extract b1 5 1 = 0#1 then
    Parsed.andThen (takeByte .immediate bytes) fun v rest => .ok (.movR8Imm8 (extract b1 6 3) v, rest)
  else
    Parsed.andThen (takeWord .immediate bytes) fun v rest => .ok (.movR16Imm16 (extract b1 6 3) v, rest)

/-- The reading side of `decode_imm_rm` (`45_mov_imm_rm.md` R150): the `reg` field is checked before any further
read (log entry 8). -/
def decodeImmRm (b1 : Byte) (bytes : List Byte) : Parsed Instr :=
  Parsed.andThen (takeByte .modrm bytes) fun b2 rest =>
    if extract b2 3 3 ≠ 0#3 then .error (.invalidFieldCombination .modrm)
    else
      Parsed.andThen (decodeRm (extract b2 1 2) (extract b2 6 3) rest) fun rm rest =>
        if extract b1 8 1 = 0#1 then
          Parsed.andThen (takeByte .immediate rest) fun v rest => .ok (.movRm8Imm8 rm v, rest)
        else
          Parsed.andThen (takeWord .immediate rest) fun v rest => .ok (.movRm16Imm16 rm v, rest)

/-- The reading side of `decode_mem_acc` (`46_mov_acc_mem.md` R160): two address bytes whatever `w` is. -/
def decodeMemAcc (b1 : Byte) (bytes : List Byte) : Parsed Instr :=
  Parsed.andThen (takeWord .address bytes) fun addr rest =>
    .ok (if extract b1 8 1 = 0#1 then .movAlAddr addr else .movAxAddr addr, rest)

/-- The reading side of `decode_acc_mem` (`46_mov_acc_mem.md` R162). -/
def decodeAccMem (b1 : Byte) (bytes : List Byte) : Parsed Instr :=
  Parsed.andThen (takeWord .address bytes) fun addr rest =>
    .ok (if extract b1 8 1 = 0#1 then .movAddrAl addr else .movAddrAx addr, rest)

/-- The instruction at the head of a list of bytes (`47_driver_and_output.md` R171): byte 1 is classified alone, and
each later byte is read only when the format needs it (R172, log entry 10). -/
def decode : List Byte → Parsed Instr
  | [] => .error .noByte
  | b1 :: rest =>
    match classify b1 with
    | some .immReg => decodeImmReg b1 rest
    | some .rmReg => decodeRmReg b1 rest
    | some .immRm => decodeImmRm b1 rest
    | some .memAcc => decodeMemAcc b1 rest
    | some .accMem => decodeAccMem b1 rest
    | none => .ok (.unsupportedFirstByte b1, rest)

/-! ## The encoder, from the tables of `30_encoding.md` -/

/-- The `mod` field of a form (`30_encoding.md` R67). -/
def RmField.mod : RmField → BitVec 2
  | .register _ => 3
  | .indirect _ => 0
  | .direct _ => 0
  | .disp8 _ _ => 1
  | .disp16 _ _ => 2

/-- The `rm` field of a form (`30_encoding.md` R67). -/
def RmField.rmCode : RmField → BitVec 3
  | .register code => code
  | .indirect rm => rm
  | .direct _ => 6
  | .disp8 rm _ => rm
  | .disp16 rm _ => rm

/-- The displacement or address bytes of a form, low byte first (`30_encoding.md` R67, `20_memory.md` R44). -/
def RmField.tail : RmField → List Byte
  | .register _ => []
  | .indirect _ => []
  | .direct addr => [lowByte addr, highByte addr]
  | .disp8 _ disp => [disp]
  | .disp16 _ disp => [lowByte disp, highByte disp]

/-- The addressing byte `mod(2) reg(3) rm(3)` (`30_encoding.md` R66). -/
def RmField.addressingByte (f : RmField) (reg : BitVec 3) : Byte := f.mod ++ reg ++ f.rmCode

/-- The bytes of an instruction, in stream order (`30_encoding.md` R60 to R68). -/
def encode : Instr → List Byte
  | .movRm8R8 reg rm => 0x88 :: rm.addressingByte reg :: rm.tail
  | .movRm16R16 reg rm => 0x89 :: rm.addressingByte reg :: rm.tail
  | .movR8Rm8 reg rm => 0x8A :: rm.addressingByte reg :: rm.tail
  | .movR16Rm16 reg rm => 0x8B :: rm.addressingByte reg :: rm.tail
  | .movR8Imm8 reg imm => [0b10110#5 ++ reg, imm]
  | .movR16Imm16 reg imm => [0b10111#5 ++ reg, lowByte imm, highByte imm]
  | .movRm8Imm8 rm imm => 0xC6 :: rm.addressingByte 0 :: (rm.tail ++ [imm])
  | .movRm16Imm16 rm imm => 0xC7 :: rm.addressingByte 0 :: (rm.tail ++ [lowByte imm, highByte imm])
  | .movAlAddr addr => [0xA0, lowByte addr, highByte addr]
  | .movAxAddr addr => [0xA1, lowByte addr, highByte addr]
  | .movAddrAl addr => [0xA2, lowByte addr, highByte addr]
  | .movAddrAx addr => [0xA3, lowByte addr, highByte addr]
  | .unsupportedFirstByte b => [b]

/-- How many bytes an instruction has. -/
def Instr.length (i : Instr) : Nat := (encode i).length

/-! ## The opcode table's numbering of bits -/

/-- The bytes of a word numbered as the opcode table numbers it: byte 1 is bits 7..0, the next byte bits 15..8, and so on up
to the longest instruction. Bits from `nbits` on are 0. -/
def tableBytes (nbits w : Nat) : List Byte :=
  (List.range Config.maxLength).map fun k => BitVec.ofNat 8 ((w % 2 ^ nbits) / 2 ^ (8 * k))

/-- The instruction the decoder reads from a word of the opcode table. -/
def decodeTableWord (nbits w : Nat) : Option Instr :=
  match decode (tableBytes nbits w) with
  | .ok (i, _) => some i
  | .error _ => none

end Sys2Proof
end

