-- ==== Sys2Proof/Machine/Operands.lean ====
section
/-! DEFINITION. The operand values: RegisterTable and EffectiveAddressTable (`40_bitfield_and_tables.md` sections 2 and
3), the extensions of `00_scope.md` R10, and the value side of the OperandDecoder (`41_operand_decoder.md`). -/

namespace Sys2Proof.Machine

/-- `reg_lookup` of `40_bitfield_and_tables.md` R95. The code's type is its domain (R97). -/
def regLookup (width : Width) (code : BitVec 3) : RegisterName :=
  match width, code with
  | .byte, 0 => .al
  | .byte, 1 => .cl
  | .byte, 2 => .dl
  | .byte, 3 => .bl
  | .byte, 4 => .ah
  | .byte, 5 => .ch
  | .byte, 6 => .dh
  | .byte, 7 => .bh
  | .word, 0 => .ax
  | .word, 1 => .cx
  | .word, 2 => .dx
  | .word, 3 => .bx
  | .word, 4 => .sp
  | .word, 5 => .bp
  | .word, 6 => .si
  | .word, 7 => .di

/-- `ea_components` of `40_bitfield_and_tables.md` R98. -/
def eaComponents (rm : BitVec 3) : List RegisterName :=
  match rm with
  | 0 => [.bx, .si]
  | 1 => [.bx, .di]
  | 2 => [.bp, .si]
  | 3 => [.bp, .di]
  | 4 => [.si]
  | 5 => [.di]
  | 6 => [.bp]
  | 7 => [.bx]

/-- `is_direct_address` of `40_bitfield_and_tables.md` R99, asked for `mod` in 0..2; at `mod = 3` false (DESIGN CHOICE, log entry 15). -/
def isDirectAddress (mod : BitVec 2) (rm : BitVec 3) : Bool := mod == 0 && rm == 6

/-- The two answers of the two-argument table (`40_bitfield_and_tables.md` R100). -/
inductive EaEntry where
  | directAddress
  | components (regs : List RegisterName)
  deriving DecidableEq, Repr

/-- `ea_lookup` of `40_bitfield_and_tables.md` R100, for `mod` in 0..2; at `mod = 3` the components (DESIGN CHOICE, log entry 15). -/
def eaLookup (mod : BitVec 2) (rm : BitVec 3) : EaEntry :=
  if isDirectAddress mod rm then .directAddress else .components (eaComponents rm)

/-- `zext_16` of `00_scope.md` R10. -/
def zext16 (v : Byte) : Word16 := v.setWidth 16

/-- `sext_16` of `00_scope.md` R10. -/
def sext16 (v : Byte) : Word16 := v.signExtend 16

/-- `signed_16` of `00_scope.md` R10. -/
def signed16 (x : Word16) : Int := x.toInt

/-- A memory operand with a direct address (`41_operand_decoder.md` R112, `46_mov_acc_mem.md` R160). -/
def directOperand (addr : Word16) : Operand :=
  .memory { components := [], displacement := none, directAddress := some addr }

/-- A memory operand of the effective-address table (`41_operand_decoder.md` R108 to R110). -/
def tableOperand (rm : BitVec 3) (displacement : Option Int) : Operand :=
  .memory { components := eaComponents rm, displacement := displacement, directAddress := none }

/-- The value of `rm_operand` (`41_operand_decoder.md` R107 to R112). -/
def rmOperand (width : Width) : RmField → Operand
  | .register code => .register (regLookup width code)
  | .indirect rm => tableOperand rm none
  | .direct addr => directOperand addr
  | .disp8 rm disp => tableOperand rm (some (signed16 (sext16 disp)))
  | .disp16 rm disp => tableOperand rm (some (signed16 disp))

/-- The register a `reg` field names (`43_mov_rm_reg.md` R130, `44_mov_imm_reg.md` R140). -/
def regOperand (width : Width) (code : BitVec 3) : Operand := .register (regLookup width code)

/-- The accumulator: register code 0 at the instruction's width (`46_mov_acc_mem.md` R160). -/
def accumulator (width : Width) : Operand := .register (regLookup width 0)

/-- A byte immediate, zero-extended (`30_encoding.md` R68). -/
def byteImmediate (v : Byte) : Operand := .immediate (zext16 v) .byte

/-- A word immediate, the raw pattern (`30_encoding.md` R68). -/
def wordImmediate (v : Word16) : Operand := .immediate v .word

/-- `{MOV, destination, source}` (`10_state.md` R32). -/
def mov (destination source : Operand) : Instruction :=
  { mnemonic := .mov, destination := destination, source := source }

/-! ## The bytes a format takes after byte 1, each group with the stage it is read at -/

/-- The displacement or address bytes of an `rm` operand (`41_operand_decoder.md` R114). -/
def rmFields : RmField → List (Stage × Nat)
  | .register _ => []
  | .indirect _ => []
  | .direct _ => [(.address, 2)]
  | .disp8 _ _ => [(.displacement, 1)]
  | .disp16 _ _ => [(.displacement, 2)]

end Sys2Proof.Machine
end

