-- ==== Sys2Proof/Machine/Ops.lean ====
section
/-! DEFINITION. The named operations over the state: reading the stream (`20_memory.md`), taking an error
(`60_exceptions.md` R200, R208), emitting an instruction (`47_driver_and_output.md` R176), and what the platform does from outside:
placing a stream and applying reset (`70_reset_and_hazards.md`). -/

namespace Sys2Proof.Machine

/-! ## The sparse list of bytes -/

/-- The byte at an address. -/
def Memory.lookup : Memory → Nat → Byte
  | [], _ => Config.unlistedByte
  | (a, b) :: rest, x => if x = a then b else Memory.lookup rest x

/-- The list with one byte changed, in canonical form. Only the platform's loading uses it: the decoder writes no
memory (`20_memory.md` R43). -/
def Memory.write : Memory → Nat → Byte → Memory
  | [], x, v => if v = Config.unlistedByte then [] else [(x, v)]
  | (a, b) :: rest, x, v =>
    if x < a then
      if v = Config.unlistedByte then (a, b) :: rest else (x, v) :: (a, b) :: rest
    else if x = a then
      if v = Config.unlistedByte then rest else (x, v) :: rest
    else (a, b) :: Memory.write rest x v

/-- Consecutive bytes, the first at the address given. -/
def Memory.writeBytes : Memory → Nat → List Byte → Memory
  | m, _, [] => m
  | m, x, b :: rest => Memory.writeBytes (Memory.write m x b) (x + 1) rest

/-- Canonical from an address on. -/
def Memory.wfFrom : Nat → Memory → Bool
  | _, [] => true
  | low, (a, b) :: rest => decide (low ≤ a) && (b != Config.unlistedByte) && Memory.wfFrom (a + 1) rest

/-- The canonical form: addresses strictly rising, no entry of the value an unlisted address reads as. -/
def Memory.wf (m : Memory) : Bool := Memory.wfFrom 0 m

/-! ## Reading the stream -/

/-- `S[i]` (`00_scope.md` R11): no value at an index outside the stream (`20_memory.md` R41). -/
def State.readByte (s : State) (i : Nat) : Option Byte :=
  if i < s.len then some (Memory.lookup s.mem i) else none

/-- `MemRead(addr, n)` (`20_memory.md` R41): defined only when `addr + n <= LEN`. -/
def State.memRead (s : State) (addr n : Nat) : Option (List Byte) :=
  if addr + n ≤ s.len then some ((List.range n).map fun k => Memory.lookup s.mem (addr + k)) else none

/-- The stream bytes from an index on, at most `n` of them, ending where the stream ends. -/
def State.bytesFrom (s : State) : Nat → Nat → List Byte
  | _, 0 => []
  | p, n + 1 => if p < s.len then Memory.lookup s.mem p :: State.bytesFrom s (p + 1) n else []

/-- What one decode can look at: at most 6 bytes from the cursor on (`47_driver_and_output.md` R170, R173). -/
def State.window (s : State) : List Byte := s.bytesFrom s.pos Config.maxLength

/-! ## Taking an error -/

/-- `raise` and the halt (`60_exceptions.md` R200, R208): the record holds the index and the value of the failing instruction's first
byte. There is no return from it (R209): the way out is `State.applyReset`. -/
def State.raise (s : State) (kind : ErrorKind) (stage : Stage) : Host.Outcome State Fault Refusal :=
  match s.readByte s.pos with
  | some b => .next (s.setFailed { kind := kind, offset := s.pos, byte := b, stage := stage })
  | none => .fault .readOutsideStream

/-! ## Emitting an instruction -/

/-- The successive `take(n, stage)` of a decode (`41_operand_decoder.md` R106), from the read index `p` on: the index after the
last, or the stage of the first that passes the end of the stream. -/
def takeFields (len : Nat) : Nat → List (Stage × Nat) → Except Stage Nat
  | p, [] => .ok p
  | p, (stage, n) :: rest => if p + n > len then .error stage else takeFields len (p + n) rest

/-- `emit((pos, n, instr))` and `pos <- pos + n` (`47_driver_and_output.md` R176). -/
def State.emit (s : State) (n : Nat) (instr : Instruction) : State :=
  { s with pos := s.pos + n, out := s.out ++ [{ offset := s.pos, length := n, instr := instr }] }

/-- The end of one decode (`47_driver_and_output.md` R171, R176): when every byte the format takes is there, the instruction is emitted and
the cursor advanced by the bytes taken; else TruncatedStream at the stage of the first group that is not whole (`60_exceptions.md`
R201, R206). -/
def State.deliver (s : State) (fields : List (Stage × Nat)) (instr : Instruction) : Host.Outcome State Fault Refusal :=
  match takeFields s.len (s.pos + 1) fields with
  | .ok p => .next (s.emit (p - s.pos) instr)
  | .error stage => s.raise .truncatedStream stage

/-! ## What the platform does from outside -/

/-- The platform places a whole stream and fixes its length, before reset is released (`70_reset_and_hazards.md` R231). -/
def State.loadStream (s : State) (bytes : List Byte) : State :=
  { s with mem := Memory.writeBytes [] 0 bytes, len := bytes.length }

/-- Reset, in any state (`70_reset_and_hazards.md` R230): the inputs stay (`10_state.md` R36). -/
def State.applyReset (s : State) : State :=
  { s with pos := 0, st := .reading, err := none, out := [] }

/-- The state in which a run on a stream begins. -/
def State.boot (bytes : List Byte) : State := (State.reset.loadStream bytes).applyReset

end Sys2Proof.Machine
end

