-- ==== Sys2Proof/Machine/AccMem.lean ====
section
/-! DEFINITION. MOV memory to accumulator and accumulator to memory, `A0` to `A3` (`46_mov_acc_mem.md` R160 to R163): two address
bytes, whatever the width. -/

namespace Sys2Proof.Machine

/-- `MOV AL, [addr]` (`46_mov_acc_mem.md` R160). -/
def execMovAlAddr (addr : Word16) (s : State) : Host.Outcome State Fault Refusal :=
  s.deliver [(.address, 2)] (mov (accumulator .byte) (directOperand addr))

/-- `MOV AX, [addr]` (`46_mov_acc_mem.md` R161). -/
def execMovAxAddr (addr : Word16) (s : State) : Host.Outcome State Fault Refusal :=
  s.deliver [(.address, 2)] (mov (accumulator .word) (directOperand addr))

/-- `MOV [addr], AL` (`46_mov_acc_mem.md` R162). -/
def execMovAddrAl (addr : Word16) (s : State) : Host.Outcome State Fault Refusal :=
  s.deliver [(.address, 2)] (mov (directOperand addr) (accumulator .byte))

/-- `MOV [addr], AX` (`46_mov_acc_mem.md` R163). -/
def execMovAddrAx (addr : Word16) (s : State) : Host.Outcome State Fault Refusal :=
  s.deliver [(.address, 2)] (mov (directOperand addr) (accumulator .word))

end Sys2Proof.Machine
end

