-- ==== Sys2Proof/Machine/ImmReg.lean ====
section
/-! DEFINITION. MOV immediate to register, `B0` to `BF` (`44_mov_imm_reg.md` R140 to R142). -/

namespace Sys2Proof.Machine

/-- `MOV r8, imm8` (`44_mov_imm_reg.md` R141): the immediate byte is zero-extended. -/
def execMovR8Imm8 (reg : BitVec 3) (imm : Byte) (s : State) : Host.Outcome State Fault Refusal :=
  s.deliver [(.immediate, 1)] (mov (regOperand .byte reg) (byteImmediate imm))

/-- `MOV r16, imm16` (`44_mov_imm_reg.md` R142). -/
def execMovR16Imm16 (reg : BitVec 3) (imm : Word16) (s : State) : Host.Outcome State Fault Refusal :=
  s.deliver [(.immediate, 2)] (mov (regOperand .word reg) (wordImmediate imm))

end Sys2Proof.Machine
end

