-- ==== Sys2Proof/Machine/ImmRm.lean ====
section
/-! DEFINITION. MOV immediate to register/memory, `C6` and `C7` (`45_mov_imm_rm.md` R150 to R152): the addressing byte, the bytes of the
`rm` operand, then the immediate. The error for a non-zero `reg` field is the decoder's (`decodeImmRm`). -/

namespace Sys2Proof.Machine

/-- The groups of bytes of IMM_RM after byte 1 (`45_mov_imm_rm.md` R150), with `n` immediate bytes. -/
def immRmFields (rm : RmField) (n : Nat) : List (Stage × Nat) := (.modrm, 1) :: (rmFields rm ++ [(.immediate, n)])

/-- `MOV r/m8, imm8` (`45_mov_imm_rm.md` R151): the immediate byte is zero-extended. -/
def execMovRm8Imm8 (rm : RmField) (imm : Byte) (s : State) : Host.Outcome State Fault Refusal :=
  s.deliver (immRmFields rm 1) (mov (rmOperand .byte rm) (byteImmediate imm))

/-- `MOV r/m16, imm16` (`45_mov_imm_rm.md` R152). -/
def execMovRm16Imm16 (rm : RmField) (imm : Word16) (s : State) : Host.Outcome State Fault Refusal :=
  s.deliver (immRmFields rm 2) (mov (rmOperand .word rm) (wordImmediate imm))

end Sys2Proof.Machine
end

