-- ==== Sys2Proof/Machine/RmReg.lean ====
section
/-! DEFINITION. MOV register/memory to or from register, `88` to `8B` (`43_mov_rm_reg.md` R130 to R134): the addressing byte, then the
bytes of the `rm` operand. -/

namespace Sys2Proof.Machine

/-- The groups of bytes of RM_REG after byte 1 (`43_mov_rm_reg.md` R130). -/
def rmRegFields (rm : RmField) : List (Stage × Nat) := (.modrm, 1) :: rmFields rm

/-- `MOV r/m8, r8` (`43_mov_rm_reg.md` R131): `d = 0`, the `rm` operand is the destination. -/
def execMovRm8R8 (reg : BitVec 3) (rm : RmField) (s : State) : Host.Outcome State Fault Refusal :=
  s.deliver (rmRegFields rm) (mov (rmOperand .byte rm) (regOperand .byte reg))

/-- `MOV r/m16, r16` (`43_mov_rm_reg.md` R132): `d = 0`, the `rm` operand is the destination. -/
def execMovRm16R16 (reg : BitVec 3) (rm : RmField) (s : State) : Host.Outcome State Fault Refusal :=
  s.deliver (rmRegFields rm) (mov (rmOperand .word rm) (regOperand .word reg))

/-- `MOV r8, r/m8` (`43_mov_rm_reg.md` R133): `d = 1`, the `reg` operand is the destination. -/
def execMovR8Rm8 (reg : BitVec 3) (rm : RmField) (s : State) : Host.Outcome State Fault Refusal :=
  s.deliver (rmRegFields rm) (mov (regOperand .byte reg) (rmOperand .byte rm))

/-- `MOV r16, r/m16` (`43_mov_rm_reg.md` R134): `d = 1`, the `reg` operand is the destination. -/
def execMovR16Rm16 (reg : BitVec 3) (rm : RmField) (s : State) : Host.Outcome State Fault Refusal :=
  s.deliver (rmRegFields rm) (mov (regOperand .word reg) (rmOperand .word rm))

end Sys2Proof.Machine
end

