-- ==== Sys2Proof/Machine/Unsupported.lean ====
section
/-! DEFINITION. A first byte that no pattern matches (`60_exceptions.md` R202): the table's last row, whose effect is to raise
UnsupportedOpcode. -/

namespace Sys2Proof.Machine

/-- UnsupportedOpcode at stage `classify` (`60_exceptions.md` R202). The record's byte is the stream's (log entry 12). -/
def execUnsupportedFirstByte (_byte : Byte) (s : State) : Host.Outcome State Fault Refusal :=
  s.raise .unsupportedOpcode .classify

end Sys2Proof.Machine
end

