-- ==== Sys2Proof/Machine/Dispatch.lean ====
section
/-! DEFINITION. One arm for each row of the opcode table. -/

namespace Sys2Proof.Machine

def exec (i : Instr) (s : State) : Host.Outcome State Fault Refusal :=
  match i with
  | .movRm8R8 reg rm => Sys2Proof.Machine.execMovRm8R8 reg rm s
  | .movRm16R16 reg rm => Sys2Proof.Machine.execMovRm16R16 reg rm s
  | .movR8Rm8 reg rm => Sys2Proof.Machine.execMovR8Rm8 reg rm s
  | .movR16Rm16 reg rm => Sys2Proof.Machine.execMovR16Rm16 reg rm s
  | .movR8Imm8 reg imm => Sys2Proof.Machine.execMovR8Imm8 reg imm s
  | .movR16Imm16 reg imm => Sys2Proof.Machine.execMovR16Imm16 reg imm s
  | .movRm8Imm8 rm imm => Sys2Proof.Machine.execMovRm8Imm8 rm imm s
  | .movRm16Imm16 rm imm => Sys2Proof.Machine.execMovRm16Imm16 rm imm s
  | .movAlAddr addr => Sys2Proof.Machine.execMovAlAddr addr s
  | .movAxAddr addr => Sys2Proof.Machine.execMovAxAddr addr s
  | .movAddrAl addr => Sys2Proof.Machine.execMovAddrAl addr s
  | .movAddrAx addr => Sys2Proof.Machine.execMovAddrAx addr s
  | .unsupportedFirstByte byte => Sys2Proof.Machine.execUnsupportedFirstByte byte s

end Sys2Proof.Machine
end

