-- ==== Sys2Proof/Machine/Fetch.lean ====
section
/-! DEFINITION. What a step finds before it runs an instruction: the case distinction of the driver's step
(`47_driver_and_output.md` R176). -/

namespace Sys2Proof.Machine

/-- What stands before the step. -/
inductive Fetched where
  /-- `st` is not Reading (`47_driver_and_output.md` R179). -/
  | halted
  /-- Reading with `pos = LEN` (R177). -/
  | atEnd
  /-- An instruction, all its bytes there. -/
  | instr (i : Instr)
  /-- The decoder refuses the bytes: an error to take (R178). -/
  | rejected (kind : ErrorKind) (stage : Stage)
  /-- Reading with the cursor beyond the stream, which `10_state.md` R22 rules out (log entry 11). -/
  | outside
  deriving DecidableEq, Repr

/-- The decode at the cursor, of the bytes from the cursor on and of nothing else (`10_state.md` R33). -/
def State.fetch (s : State) : Fetched :=
  match s.st with
  | .done => .halted
  | .failed => .halted
  | .reading =>
    if s.pos = s.len then .atEnd
    else
      match decode s.window with
      | .ok (i, _) => .instr i
      | .error .noByte => .outside
      | .error (.truncatedStream stage) => .rejected .truncatedStream stage
      | .error (.invalidFieldCombination stage) => .rejected .invalidFieldCombination stage

/-- The platform's load of one instruction at the cursor: its bytes are stored there, the stream is made long enough to hold them,
and the driver is put in Reading with no error, so that the next step decodes exactly them (log entry 2). -/
def State.placeAtCursor (s : State) (bytes : List Byte) : State :=
  { s with mem := Memory.writeBytes s.mem s.pos bytes, len := max s.len (s.pos + bytes.length), st := .reading, err := none }

end Sys2Proof.Machine
end

