-- ==== Sys2Proof/Machine/Step.lean ====
section
/-! DEFINITION. One step of the machine (`47_driver_and_output.md` R176), and the host's way to place one instruction. -/

namespace Sys2Proof.Machine

/-- The step (`47_driver_and_output.md` R176). -/
def step (s : State) : Host.Outcome State Fault Refusal :=
  match s.fetch with
  | .halted => .next s
  | .atEnd => .next s.setDone
  | .instr i => exec i s
  | .rejected kind stage => s.raise kind stage
  | .outside => .fault .readOutsideStream

/-- `s` with the instruction of a table word stored at the cursor, where `step` decodes next. -/
def State.withFetchWord (s : State) (nbits w : Nat) : State := s.placeAtCursor (tableBytes nbits w)

end Sys2Proof.Machine
end

