-- ==== Sys2Proof/Machine/Render.lean ====
section
/-! DEFINITION. The canonical text of an instruction (`47_driver_and_output.md` R183 to R187). The points its source leaves open are decided as
the spec decides them (log entry 9). The text is built as a list of characters and packed into a string at the end. -/

namespace Sys2Proof.Machine

/-- A digit, decimal or hexadecimal with capitals. -/
def digit (n : Nat) : Char :=
  ['0', '1', '2', '3', '4', '5', '6', '7', '8', '9', 'A', 'B', 'C', 'D', 'E', 'F'].getD n '0'

/-- The decimal digits of `n` before the digits already written; the first argument bounds how many are written. -/
def decimalAux : Nat → Nat → List Char → List Char
  | 0, _, acc => acc
  | fuel + 1, n, acc =>
    if n < 10 then digit n :: acc else decimalAux fuel (n / 10) (digit (n % 10) :: acc)

/-- `decimal(n)` of `47_driver_and_output.md` R186: no sign, no leading zeros. -/
def decimal (n : Nat) : List Char := decimalAux (n + 1) n []

/-- `hex4` of `47_driver_and_output.md` R185: four digits, leading zeros, capitals. -/
def hex4 (a : Word16) : List Char :=
  [digit (a.toNat / 4096), digit (a.toNat / 256 % 16), digit (a.toNat / 16 % 16), digit (a.toNat % 16)]

/-- The two-letter name of a register (`47_driver_and_output.md` R184). -/
def renderRegister : RegisterName → List Char
  | .al => ['A', 'L']
  | .cl => ['C', 'L']
  | .dl => ['D', 'L']
  | .bl => ['B', 'L']
  | .ah => ['A', 'H']
  | .ch => ['C', 'H']
  | .dh => ['D', 'H']
  | .bh => ['B', 'H']
  | .ax => ['A', 'X']
  | .cx => ['C', 'X']
  | .dx => ['D', 'X']
  | .bx => ['B', 'X']
  | .sp => ['S', 'P']
  | .bp => ['B', 'P']
  | .si => ['S', 'I']
  | .di => ['D', 'I']

/-- The components joined by " + " (`47_driver_and_output.md` R185). -/
def renderComponents : List RegisterName → List Char
  | [] => []
  | [r] => renderRegister r
  | r :: rest => renderRegister r ++ [' ', '+', ' '] ++ renderComponents rest

/-- The displacement part (`47_driver_and_output.md` R185): nothing when absent or zero. -/
def renderDisplacement : Option Int → List Char
  | none => []
  | some d =>
    if d = 0 then []
    else if 0 < d then [' ', '+', ' '] ++ decimal d.toNat
    else [' ', '-', ' '] ++ decimal (-d).toNat

/-- A memory operand in square brackets (`47_driver_and_output.md` R185). -/
def renderMemory (m : MemoryOperand) : List Char :=
  match m.directAddress with
  | some a => ['[', '0', 'x'] ++ hex4 a ++ [']']
  | none => ['['] ++ renderComponents m.components ++ renderDisplacement m.displacement ++ [']']

/-- An operand (`47_driver_and_output.md` R184 to R186). -/
def renderOperand : Operand → List Char
  | .register r => renderRegister r
  | .memory m => renderMemory m
  | .immediate value _ => decimal value.toNat

/-- The mnemonic in capitals (`47_driver_and_output.md` R183). -/
def renderMnemonic : Mnemonic → List Char
  | .mov => ['M', 'O', 'V']

/-- The characters of the line (`47_driver_and_output.md` R183). -/
def renderChars (i : Instruction) : List Char :=
  renderMnemonic i.mnemonic ++ [' '] ++ renderOperand i.destination ++ [',', ' '] ++ renderOperand i.source

/-- `render` (`47_driver_and_output.md` R183). -/
def render (i : Instruction) : String := String.ofList (renderChars i)

/-- The textual lines, one per decoded instruction, oldest first (`47_driver_and_output.md` R182). -/
def State.transcript (s : State) : List String := s.out.map fun e => render e.instr

end Sys2Proof.Machine
end

