-- ==== Sys2Proof/Machine/DecodeOne.lean ====
section
/-! DEFINITION. `decode_one(pos)` as the spec writes it: the pseudocode of `47_driver_and_output.md` R171 and R176 and of
the routines it calls, line by line, over the stream, a read index and error records. `step` runs an instruction the other way round (decode the
bytes, then `exec`); this file is the clear form that claims compare it with and speak through. A result `Ok(v, n)` or `Err(e)`
(`00_scope.md` R11) is an `Except` over error records; inside a decode its number is the read index `p`. -/

namespace Sys2Proof.Machine

/-- `S[p]`, where `p` is known to lie in the stream. -/
def State.streamByte (s : State) (p : Nat) : Byte := Memory.lookup s.mem p

/-- The record that `raise` returns (`60_exceptions.md` R200 to R204). -/
def State.errorAt (s : State) (pos : Nat) (kind : ErrorKind) (stage : Stage) : ErrorRecord :=
  { kind := kind, offset := pos, byte := s.streamByte pos, stage := stage }

/-- `[b] = take(1, stage)` (`41_operand_decoder.md` R106). -/
def takeOneAt (s : State) (pos p : Nat) (stage : Stage) : Except ErrorRecord (Byte × Nat) :=
  if p + 1 > s.len then .error (s.errorAt pos .truncatedStream stage) else .ok (s.streamByte p, p + 1)

/-- `[lo, hi] = take(2, stage)` and `hi * 256 + lo` (`41_operand_decoder.md` R106, `20_memory.md` R44). -/
def takeTwoAt (s : State) (pos p : Nat) (stage : Stage) : Except ErrorRecord (Word16 × Nat) :=
  if p + 2 > s.len then .error (s.errorAt pos .truncatedStream stage)
  else .ok (BitVec.ofNat 16 ((s.streamByte (p + 1)).toNat * 256 + (s.streamByte p).toNat), p + 2)

/-- `Byte if w == 0 else Word` (`10_state.md` R28). -/
def widthOf (w : BitVec 1) : Width := if w = 0 then .byte else .word

/-- `rm_operand(mod, rm, width)` (`41_operand_decoder.md` R114). -/
def rmOperandAt (s : State) (pos p : Nat) (mod : BitVec 2) (rm : BitVec 3) (width : Width) : Except ErrorRecord (Operand × Nat) :=
  if mod = 3 then .ok (.register (regLookup width rm), p)
  else
    match eaLookup mod rm with
    | .directAddress => do
      let (addr, p) ← takeTwoAt s pos p .address
      return (.memory { components := [], displacement := none, directAddress := some addr }, p)
    | .components comps =>
      if mod = 0 then .ok (.memory { components := comps, displacement := none, directAddress := none }, p)
      else if mod = 1 then do
        let (d, p) ← takeOneAt s pos p .displacement
        return (.memory { components := comps, displacement := some (signed16 (sext16 d)), directAddress := none }, p)
      else do
        let (d, p) ← takeTwoAt s pos p .displacement
        return (.memory { components := comps, displacement := some (signed16 d), directAddress := none }, p)

/-- The immediate of width `w` (`44_mov_imm_reg.md` R140, `45_mov_imm_rm.md` R150). -/
def immediateAt (s : State) (pos p : Nat) (w : BitVec 1) : Except ErrorRecord (Operand × Nat) :=
  if w = 0 then do
    let (v, p) ← takeOneAt s pos p .immediate
    return (.immediate (zext16 v) .byte, p)
  else do
    let (v, p) ← takeTwoAt s pos p .immediate
    return (.immediate v .word, p)

/-- `decode_imm_reg` (`44_mov_imm_reg.md` R140). -/
def decodeImmRegAt (s : State) (pos : Nat) (b1 : Byte) : Except ErrorRecord (Instruction × Nat) := do
  let w := extract b1 5 1
  let reg := extract b1 6 3
  let (imm, p) ← immediateAt s pos (pos + 1) w
  return ({ mnemonic := .mov, destination := .register (regLookup (widthOf w) reg), source := imm }, p - pos)

/-- `decode_rm_reg` (`43_mov_rm_reg.md` R130). -/
def decodeRmRegAt (s : State) (pos : Nat) (b1 : Byte) : Except ErrorRecord (Instruction × Nat) := do
  let d := extract b1 7 1
  let width := widthOf (extract b1 8 1)
  let (b2, p) ← takeOneAt s pos (pos + 1) .modrm
  let r := Operand.register (regLookup width (extract b2 3 3))
  let (m, p) ← rmOperandAt s pos p (extract b2 1 2) (extract b2 6 3) width
  return (if d = 1 then { mnemonic := .mov, destination := r, source := m }
    else { mnemonic := .mov, destination := m, source := r }, p - pos)

/-- `decode_imm_rm` (`45_mov_imm_rm.md` R150). -/
def decodeImmRmAt (s : State) (pos : Nat) (b1 : Byte) : Except ErrorRecord (Instruction × Nat) := do
  let w := extract b1 8 1
  let (b2, p) ← takeOneAt s pos (pos + 1) .modrm
  if extract b2 3 3 ≠ 0#3 then .error (s.errorAt pos .invalidFieldCombination .modrm)
  else do
    let (d, p) ← rmOperandAt s pos p (extract b2 1 2) (extract b2 6 3) (widthOf w)
    let (imm, p) ← immediateAt s pos p w
    return ({ mnemonic := .mov, destination := d, source := imm }, p - pos)

/-- `decode_mem_acc` (`46_mov_acc_mem.md` R160). -/
def decodeMemAccAt (s : State) (pos : Nat) (b1 : Byte) : Except ErrorRecord (Instruction × Nat) := do
  let width := widthOf (extract b1 8 1)
  let (addr, p) ← takeTwoAt s pos (pos + 1) .address
  return ({ mnemonic := .mov, destination := .register (regLookup width 0),
            source := .memory { components := [], displacement := none, directAddress := some addr } }, p - pos)

/-- `decode_acc_mem` (`46_mov_acc_mem.md` R162). -/
def decodeAccMemAt (s : State) (pos : Nat) (b1 : Byte) : Except ErrorRecord (Instruction × Nat) := do
  let width := widthOf (extract b1 8 1)
  let (addr, p) ← takeTwoAt s pos (pos + 1) .address
  return ({ mnemonic := .mov, destination := .memory { components := [], displacement := none, directAddress := some addr },
            source := .register (regLookup width 0) }, p - pos)

/-- `decode_one(pos)` (`47_driver_and_output.md` R171), for `pos < LEN` (R170). -/
def decodeOne (s : State) (pos : Nat) : Except ErrorRecord (Instruction × Nat) :=
  let b1 := s.streamByte pos
  match classify b1 with
  | some .immReg => decodeImmRegAt s pos b1
  | some .rmReg => decodeRmRegAt s pos b1
  | some .immRm => decodeImmRmAt s pos b1
  | some .memAcc => decodeMemAccAt s pos b1
  | some .accMem => decodeAccMemAt s pos b1
  | none => .error (s.errorAt pos .unsupportedOpcode .classify)

/-- The driver's step (`47_driver_and_output.md` R176). -/
def driverStep (s : State) : State :=
  match s.st with
  | .done => s
  | .failed => s
  | .reading =>
    if s.pos = s.len then { s with st := .done }
    else
      match decodeOne s s.pos with
      | .ok (instr, n) => { s with pos := s.pos + n, out := s.out ++ [{ offset := s.pos, length := n, instr := instr }] }
      | .error e => { s with st := .failed, err := some e }

end Sys2Proof.Machine
end

