-- ==== Sys2Proof/Safety.lean ====
section
/-! DEFINITION. What counts as a safe state: the data model's invariants (`10_state.md` R30 to R32) and the invariant of the
driver (R22 to R26, `47_driver_and_output.md` R177, R178). -/

namespace Sys2Proof.Machine

/-- The invariant of a memory operand (`10_state.md` R30): a direct address exactly when there are no components, and then no
displacement; the components a table entry; the displacement a signed 16-bit number. -/
def memoryOperandOk (m : MemoryOperand) : Prop :=
  (m.components = [] ↔ m.directAddress.isSome) ∧
  (m.directAddress.isSome → m.displacement = none) ∧
  (m.components ≠ [] → ∃ rm, m.components = eaComponents rm) ∧
  (∀ d, m.displacement = some d → -32768 ≤ d ∧ d ≤ 32767)

/-- An operand as `10_state.md` R31 types it: a byte immediate is below 256. -/
def operandOk : Operand → Prop
  | .register _ => True
  | .memory m => memoryOperandOk m
  | .immediate value width => width = .byte → value.toNat ≤ 255

/-- Whether an operand is an immediate. -/
def isImmediate : Operand → Bool
  | .register _ => false
  | .memory _ => false
  | .immediate _ _ => true

/-- Whether an operand is a memory operand. -/
def isMemory : Operand → Bool
  | .register _ => false
  | .memory _ => true
  | .immediate _ _ => false

/-- The invariants of an instruction (`10_state.md` R32): both operands as R30 and R31 type them, the destination never an
immediate, never two memory operands. -/
def instructionOk (i : Instruction) : Prop :=
  operandOk i.destination ∧ operandOk i.source ∧ isImmediate i.destination = false ∧
  (isMemory i.destination = false ∨ isMemory i.source = false)

/-- The entries tile the stream from `start` to `stop`: each begins where the one before it ended, and holds what `decode_one` gives
at its offset (`10_state.md` R22, R26). -/
def Tiles (s : State) : Nat → List Emitted → Nat → Prop
  | start, [], stop => start = stop
  | start, e :: rest, stop =>
    e.offset = start ∧ start < s.len ∧ decodeOne s start = .ok (e.instr, e.length) ∧ Tiles s (start + e.length) rest stop

/-- The invariant of the machine. -/
structure State.Inv (s : State) : Prop where
  /-- The stream is in canonical form (log entry 1). -/
  mem_canonical : Memory.wf s.mem = true
  /-- No cell lies outside the stream (`20_memory.md` R47). -/
  mem_inside : ∀ c ∈ s.mem, c.1 < s.len
  /-- `pos <= LEN` (`10_state.md` R22). -/
  pos_le_len : s.pos ≤ s.len
  /-- `err` is Some exactly when `st = Failed` (`10_state.md` R24). -/
  err_iff_failed : s.err.isSome ↔ s.st = .failed
  /-- The record is the error that `decode_one` gives at the cursor (`47_driver_and_output.md` R178). -/
  err_is_cause : ∀ e, s.err = some e → s.pos < s.len ∧ decodeOne s s.pos = .error e
  /-- `Done` means that every byte was consumed (`47_driver_and_output.md` R177). -/
  done_at_end : s.st = .done → s.pos = s.len
  /-- `OUT` is what was decoded, from index 0 up to the cursor, with no gap (`10_state.md` R22, R26). -/
  out_tiles : Tiles s 0 s.out s.pos

end Sys2Proof.Machine
end

