-- ==== Sys2Proof/Certificates/Slice0/Obligations.lean ====
section
/-! DEFINITION. The statements about the machine. The small definitions under `Sys2Proof.Claims` are the spec's tables and arithmetic
written again in the plainest form (lists, natural numbers, integers), so that a statement about an instruction does not lean on the
model's own tables. Where a statement rests on a point that the spec marks as its own decision (D1 to D21 of `92_eei_decisions.md`)
or on a choice of the model, its docstring says so. -/

namespace Sys2Proof.Claims

open Sys2Proof.Machine

/-- The register table in code order (`40_bitfield_and_tables.md` R95). -/
def registerColumn : Width → List RegisterName
  | .byte => [.al, .cl, .dl, .bl, .ah, .ch, .dh, .bh]
  | .word => [.ax, .cx, .dx, .bx, .sp, .bp, .si, .di]

/-- The effective-address table in order (`40_bitfield_and_tables.md` R98). -/
def baseRows : List (List RegisterName) :=
  [[.bx, .si], [.bx, .di], [.bp, .si], [.bp, .di], [.si], [.di], [.bp], [.bx]]

/-- The register operand of a code below 8. -/
def reg (width : Width) (code : Nat) : Operand := .register ((registerColumn width).getD code .al)

/-- The memory operand of a table row below 8. -/
def mem (row : Nat) (displacement : Option Int) : Operand := .memory ⟨baseRows.getD row [], displacement, none⟩

/-- Two stream bytes as a number, low byte first (`20_memory.md` R44). -/
def pair (lo hi : Byte) : Nat := hi.toNat * 256 + lo.toNat

/-- The memory operand of a direct address. -/
def direct (lo hi : Byte) : Operand := .memory ⟨[], none, some (BitVec.ofNat 16 (pair lo hi))⟩

/-- A one-byte immediate (`30_encoding.md` R68): the byte's own value. -/
def imm8 (v : Byte) : Operand := .immediate (BitVec.ofNat 16 v.toNat) .byte

/-- A two-byte immediate (`30_encoding.md` R68). -/
def imm16 (lo hi : Byte) : Operand := .immediate (BitVec.ofNat 16 (pair lo hi)) .word

/-- A one-byte displacement (`41_operand_decoder.md` R109). -/
def disp8 (d : Byte) : Int := if d.toNat < 128 then d.toNat else (d.toNat : Int) - 256

/-- A two-byte displacement (`41_operand_decoder.md` R110). -/
def disp16 (lo hi : Byte) : Int := if pair lo hi < 32768 then pair lo hi else (pair lo hi : Int) - 65536

/-- `MOV destination, source`. -/
def movOf (destination source : Operand) : Instruction := ⟨.mov, destination, source⟩

/-- The step runs the instruction `i`, which gives a next state: `n` bytes consumed and the value `v` emitted. -/
def Runs (s : State) (i : Instr) (n : Nat) (v : Instruction) : Prop :=
  step s = exec i s ∧ ∃ t, exec i s = .next t ∧ t.pos = s.pos + n ∧ t.out = s.out ++ [⟨s.pos, n, v⟩]

/-- The step takes TruncatedStream at a stage. -/
def Truncates (s : State) (stage : Stage) : Prop :=
  ∃ t e, step s = .next t ∧ t.err = some e ∧ e.kind = .truncatedStream ∧ e.stage = stage

/-- The rule of one RM_REG instruction (`43_mov_rm_reg.md` R130): its first byte, its constructor, its width and whether the `reg`
operand is the destination. The fields of byte 2 are read as numbers. -/
def RmRegRule (b1 : Byte) (mk : BitVec 3 → RmField → Instr) (width : Width) (regIsDestination : Bool) : Prop :=
  ∀ s : State, s.st = .reading → s.readByte s.pos = some b1 →
    (s.readByte (s.pos + 1) = none → Truncates s .modrm) ∧
    ∀ b2, s.readByte (s.pos + 1) = some b2 →
      let mod := b2.toNat / 64
      let r := b2.toNat / 8 % 8
      let rm := b2.toNat % 8
      let value := fun m => if regIsDestination then movOf (reg width r) m else movOf m (reg width r)
      let run := fun f n m => Runs s (mk (BitVec.ofNat 3 r) f) n (value m)
      (mod = 3 → run (.register (BitVec.ofNat 3 rm)) 2 (reg width rm)) ∧
      (mod = 0 → rm ≠ 6 → run (.indirect (BitVec.ofNat 3 rm)) 2 (mem rm none)) ∧
      (mod = 0 → rm = 6 →
        (s.readByte (s.pos + 3) = none → Truncates s .address) ∧
        ∀ lo hi, s.readByte (s.pos + 2) = some lo → s.readByte (s.pos + 3) = some hi →
          run (.direct (BitVec.ofNat 16 (pair lo hi))) 4 (direct lo hi)) ∧
      (mod = 1 →
        (s.readByte (s.pos + 2) = none → Truncates s .displacement) ∧
        ∀ d, s.readByte (s.pos + 2) = some d →
          run (.disp8 (BitVec.ofNat 3 rm) d) 3 (mem rm (some (disp8 d)))) ∧
      (mod = 2 →
        (s.readByte (s.pos + 3) = none → Truncates s .displacement) ∧
        ∀ lo hi, s.readByte (s.pos + 2) = some lo → s.readByte (s.pos + 3) = some hi →
          run (.disp16 (BitVec.ofNat 3 rm) (BitVec.ofNat 16 (pair lo hi))) 4 (mem rm (some (disp16 lo hi))))

/-- The rule of one IMM_RM instruction (`45_mov_imm_rm.md` R150) with its `reg` field 0, given what stands for the immediate: `at` is the
index where the immediate starts, counted from the cursor, and the last argument says what happens there for an `rm` form and its
operand. -/
def ImmRmForms (s : State) (width : Width) (atImmediate : Nat → RmField → Operand → Prop) : Prop :=
  ∀ b2, s.readByte (s.pos + 1) = some b2 → b2.toNat / 8 % 8 = 0 →
    let mod := b2.toNat / 64
    let rm := b2.toNat % 8
    (mod = 3 → atImmediate 2 (.register (BitVec.ofNat 3 rm)) (reg width rm)) ∧
    (mod = 0 → rm ≠ 6 → atImmediate 2 (.indirect (BitVec.ofNat 3 rm)) (mem rm none)) ∧
    (mod = 0 → rm = 6 →
      (s.readByte (s.pos + 3) = none → Truncates s .address) ∧
      ∀ lo hi, s.readByte (s.pos + 2) = some lo → s.readByte (s.pos + 3) = some hi →
        atImmediate 4 (.direct (BitVec.ofNat 16 (pair lo hi))) (direct lo hi)) ∧
    (mod = 1 →
      (s.readByte (s.pos + 2) = none → Truncates s .displacement) ∧
      ∀ d, s.readByte (s.pos + 2) = some d → atImmediate 3 (.disp8 (BitVec.ofNat 3 rm) d) (mem rm (some (disp8 d)))) ∧
    (mod = 2 →
      (s.readByte (s.pos + 3) = none → Truncates s .displacement) ∧
      ∀ lo hi, s.readByte (s.pos + 2) = some lo → s.readByte (s.pos + 3) = some hi →
        atImmediate 4 (.disp16 (BitVec.ofNat 3 rm) (BitVec.ofNat 16 (pair lo hi))) (mem rm (some (disp16 lo hi))))

/-- The rule of one accumulator instruction (`46_mov_acc_mem.md`). -/
def AccumulatorRule (b1 : Byte) (mk : Word16 → Instr) (value : Operand → Instruction) : Prop :=
  ∀ s : State, s.st = .reading → s.readByte s.pos = some b1 →
    (s.readByte (s.pos + 2) = none → Truncates s .address) ∧
    ∀ lo hi, s.readByte (s.pos + 1) = some lo → s.readByte (s.pos + 2) = some hi →
      Runs s (mk (BitVec.ofNat 16 (pair lo hi))) 3 (value (direct lo hi))

/-- The stage at which the byte of index `k` of an `rm` operand's own bytes is read (`60_exceptions.md` R204). -/
def rmStage : RmField → Stage
  | .direct _ => .address
  | .register _ => .displacement
  | .indirect _ => .displacement
  | .disp8 _ _ => .displacement
  | .disp16 _ _ => .displacement

/-- The stage at which the byte of index `k` of an RM_REG or IMM_RM instruction is read. -/
def stageInRm (rm : RmField) (k : Nat) : Stage :=
  if k = 0 then .classify else if k = 1 then .modrm else if k < 2 + rm.tail.length then rmStage rm else .immediate

/-- The stage at which the byte of index `k` of an instruction is read (`60_exceptions.md` R204). -/
def stageAt (i : Instr) (k : Nat) : Stage :=
  match i with
  | .movRm8R8 _ rm => stageInRm rm k
  | .movRm16R16 _ rm => stageInRm rm k
  | .movR8Rm8 _ rm => stageInRm rm k
  | .movR16Rm16 _ rm => stageInRm rm k
  | .movRm8Imm8 rm _ => stageInRm rm k
  | .movRm16Imm16 rm _ => stageInRm rm k
  | .movR8Imm8 _ _ => if k = 0 then .classify else .immediate
  | .movR16Imm16 _ _ => if k = 0 then .classify else .immediate
  | .movAlAddr _ => if k = 0 then .classify else .address
  | .movAxAddr _ => if k = 0 then .classify else .address
  | .movAddrAl _ => if k = 0 then .classify else .address
  | .movAddrAx _ => if k = 0 then .classify else .address
  | .unsupportedFirstByte _ => .classify

/-- The instruction is one of the twelve, not the table's last row. -/
def isMov : Instr → Bool
  | .unsupportedFirstByte _ => false
  | .movRm8R8 _ _ => true
  | .movRm16R16 _ _ => true
  | .movR8Rm8 _ _ => true
  | .movR16Rm16 _ _ => true
  | .movR8Imm8 _ _ => true
  | .movR16Imm16 _ _ => true
  | .movRm8Imm8 _ _ => true
  | .movRm16Imm16 _ _ => true
  | .movAlAddr _ => true
  | .movAxAddr _ => true
  | .movAddrAl _ => true
  | .movAddrAx _ => true

/-- The IMM_REG instructions. -/
def isImmReg : Instr → Bool
  | .movR8Imm8 _ _ => true
  | .movR16Imm16 _ _ => true
  | .movRm8R8 _ _ => false
  | .movRm16R16 _ _ => false
  | .movR8Rm8 _ _ => false
  | .movR16Rm16 _ _ => false
  | .movRm8Imm8 _ _ => false
  | .movRm16Imm16 _ _ => false
  | .movAlAddr _ => false
  | .movAxAddr _ => false
  | .movAddrAl _ => false
  | .movAddrAx _ => false
  | .unsupportedFirstByte _ => false

/-- The bytes of a list stand at the cursor. -/
def HoldsAtCursor (s : State) (bytes : List Byte) : Prop :=
  ∀ k, k < bytes.length → s.readByte (s.pos + k) = bytes[k]?

/-- What a step at a cursor yields, apart from where the cursor stands: a value and a count, or the kind, first byte and stage of an
error. -/
def Yields (s t : State) : Except (ErrorKind × Byte × Stage) (Instruction × Nat) → Prop
  | .ok (v, n) => t.pos = s.pos + n ∧ t.out = s.out ++ [⟨s.pos, n, v⟩]
  | .error (kind, byte, stage) => ∃ e, t.err = some e ∧ e.kind = kind ∧ e.byte = byte ∧ e.stage = stage

/-- The value of a decimal numeral. -/
def decimalValue (text : List Char) : Nat := text.foldl (fun n c => n * 10 + (c.toNat - '0'.toNat)) 0

/-- A numeral in unsigned decimal, without leading zeros, and its value. -/
def IsDecimalOf (text : List Char) (n : Nat) : Prop :=
  decimalValue text = n ∧ (∀ c ∈ text, '0' ≤ c ∧ c ≤ '9') ∧ text ≠ [] ∧ (text.head? = some '0' → text = ['0'])

/-- The hexadecimal digits in order of value. -/
def hexDigits : List Char := "0123456789ABCDEF".toList

end Sys2Proof.Claims

open Sys2Proof Sys2Proof.Machine Sys2Proof.Claims

/-! ## The leaf components -/

/-- `40_bitfield_and_tables.md` R90: the right-justified unsigned value of the bits at source positions `first` to `first + width - 1`, the
first of them the most significant, and in conventional indices `byte[8 - first : 8 - last]`. -/
def Obligations.ExtractReturnsTheBitSlice : Prop :=
  ∀ (b : Byte) (first width : Nat) (h : 1 ≤ first ∧ 1 ≤ width ∧ first + width - 1 ≤ 8),
    (extract b first width h).toNat = (b.toNat >>> (8 - (first + width - 1))) % 2 ^ width ∧
    ∀ k, k < width → (extract b first width h).getMsbD k = b.getMsbD (first - 1 + k)

/-- `40_bitfield_and_tables.md` R95 and R96: the sixteen entries, and the table is a bijection. -/
def Obligations.RegisterTableIsABijection : Prop :=
  (∀ (w : Width) (code : BitVec 3), (registerColumn w)[code.toNat]? = some (regLookup w code)) ∧
  (∀ (w w' : Width) (c c' : BitVec 3), regLookup w c = regLookup w' c' → w = w' ∧ c = c') ∧
  (∀ r : RegisterName, ∃ w c, regLookup w c = r)

/-- The component lists of `40_bitfield_and_tables.md` R98, the direct-address predicate of R99 and the two-argument form of R100. The
spec gives the last two for `mod` in 0 to 2; what they answer at `mod = 3` is the model's choice (log entry 15). -/
def Obligations.EffectiveAddressTableEntries : Prop :=
  (∀ rm : BitVec 3, baseRows[rm.toNat]? = some (eaComponents rm)) ∧
  (∀ (mod : BitVec 2) (rm : BitVec 3), isDirectAddress mod rm = true ↔ mod.toNat = 0 ∧ rm.toNat = 6) ∧
  (∀ (mod : BitVec 2) (rm : BitVec 3), eaLookup mod rm =
    if mod.toNat = 0 ∧ rm.toNat = 6 then .directAddress else .components (eaComponents rm))

/-- `42_opcode_classifier.md` R125, the tests on the byte's leading bits written as divisions. -/
def Obligations.ClassifierTestsLeadingBits : Prop :=
  ∀ b : Byte, classify b =
    if b.toNat / 16 = 0b1011 then some .immReg
    else if b.toNat / 4 = 0b100010 then some .rmReg
    else if b.toNat / 2 = 0b1100011 then some .immRm
    else if b.toNat / 2 = 0b1010000 then some .memAcc
    else if b.toNat / 2 = 0b1010001 then some .accMem
    else none

/-- `30_encoding.md` R71 and R72: 26 of the 256 first bytes select an instruction; the refused ones are the five ranges. -/
def Obligations.TwentySixFirstBytesAreAccepted : Prop :=
  ((List.range 256).filter fun n => (classify (BitVec.ofNat 8 n)).isSome).length = 26 ∧
  ∀ b : Byte, classify b = none ↔
    (b.toNat ≤ 0x87 ∨ (0x8C ≤ b.toNat ∧ b.toNat ≤ 0x9F) ∨ (0xA4 ≤ b.toNat ∧ b.toNat ≤ 0xAF) ∨
      (0xC0 ≤ b.toNat ∧ b.toNat ≤ 0xC5) ∨ 0xC8 ≤ b.toNat)

/-- `41_operand_decoder.md` R107 to R110 and R112: the forms of the operand decoder, the bytes each takes and the operand it is,
whatever bytes follow and whatever the width. -/
def Obligations.OperandDecoderForms : Prop :=
  ∀ (w : Width) (rm : BitVec 3) (rest : List Byte),
    (decodeRm 3 rm rest = .ok (.register rm, rest) ∧ rmOperand w (.register rm) = reg w rm.toNat) ∧
    (rm.toNat ≠ 6 → decodeRm 0 rm rest = .ok (.indirect rm, rest) ∧ rmOperand w (.indirect rm) = mem rm.toNat none) ∧
    (∀ lo hi, ∃ a, decodeRm 0 6 (lo :: hi :: rest) = .ok (.direct a, rest) ∧ rmOperand w (.direct a) = direct lo hi) ∧
    (∀ d, decodeRm 1 rm (d :: rest) = .ok (.disp8 rm d, rest) ∧
      rmOperand w (.disp8 rm d) = mem rm.toNat (some (disp8 d)) ∧ -128 ≤ disp8 d ∧ disp8 d ≤ 127) ∧
    (∀ lo hi, ∃ a, decodeRm 2 rm (lo :: hi :: rest) = .ok (.disp16 rm a, rest) ∧
      rmOperand w (.disp16 rm a) = mem rm.toNat (some (disp16 lo hi)))

/-- `41_operand_decoder.md` R111: a zero displacement whose bytes are there is `Some(0)`, an absent one is `None`; the two differ as
values and render alike; and the record does not keep whether one byte or two held a displacement. -/
def Obligations.ZeroDisplacementIsKeptAndRendersAsAbsent : Prop :=
  ∀ (w : Width) (rm : BitVec 3) (rest : List Byte),
    (∃ f, decodeRm 1 rm (0 :: rest) = .ok (f, rest) ∧ rmOperand w f = mem rm.toNat (some 0)) ∧
    (∃ f, decodeRm 2 rm (0 :: 0 :: rest) = .ok (f, rest) ∧ rmOperand w f = mem rm.toNat (some 0)) ∧
    (rm ≠ 6 → ∃ f, decodeRm 0 rm rest = .ok (f, rest) ∧ rmOperand w f = mem rm.toNat none) ∧
    mem rm.toNat (some 0) ≠ mem rm.toNat none ∧
    renderOperand (mem rm.toNat (some 0)) = renderOperand (mem rm.toNat none) ∧
    ∀ d : Byte, ∃ lo hi f g, decodeRm 1 rm (d :: rest) = .ok (f, rest) ∧ decodeRm 2 rm (lo :: hi :: rest) = .ok (g, rest) ∧
      rmOperand w f = rmOperand w g

/-! ## Encoding -/

/-- The decoder reads back every well-formed instruction, whatever follows it (`30_encoding.md` R60 to R68). -/
def Obligations.DecodeOfEncodeIsTheInstruction : Prop :=
  ∀ (i : Instr) (rest : List Byte), i.wf = true → decode (encode i ++ rest) = .ok (i, rest)

/-- Every accepted byte string is the encoding of the instruction it decodes to: no bit is a don't-care (`30_encoding.md` R76), and
no byte is skipped (`47_driver_and_output.md` R174). -/
def Obligations.EncodeOfDecodeIsTheBytes : Prop :=
  ∀ (bytes rest : List Byte) (i : Instr), decode bytes = .ok (i, rest) → i.wf = true ∧ bytes = encode i ++ rest

/-- The length table of `30_encoding.md` R70, with the bounds 2 and 6. -/
def Obligations.InstructionLengthTable : Prop :=
  (∀ r rm, (Instr.movRm8R8 r rm).length = 2 + rm.tail.length ∧ (Instr.movRm16R16 r rm).length = 2 + rm.tail.length ∧
    (Instr.movR8Rm8 r rm).length = 2 + rm.tail.length ∧ (Instr.movR16Rm16 r rm).length = 2 + rm.tail.length) ∧
  (∀ r v, (Instr.movR8Imm8 r v).length = 2) ∧ (∀ r v, (Instr.movR16Imm16 r v).length = 3) ∧
  (∀ rm v, (Instr.movRm8Imm8 rm v).length = 3 + rm.tail.length) ∧
  (∀ rm v, (Instr.movRm16Imm16 rm v).length = 4 + rm.tail.length) ∧
  (∀ a, (Instr.movAlAddr a).length = 3 ∧ (Instr.movAxAddr a).length = 3 ∧ (Instr.movAddrAl a).length = 3 ∧
    (Instr.movAddrAx a).length = 3) ∧
  (∀ c, (RmField.register c).tail.length = 0) ∧ (∀ m, (RmField.indirect m).tail.length = 0) ∧
  (∀ a, (RmField.direct a).tail.length = 2) ∧ (∀ m d, (RmField.disp8 m d).tail.length = 1) ∧
  (∀ m d, (RmField.disp16 m d).tail.length = 2) ∧
  (∀ i, isMov i = true → Config.minLength ≤ i.length ∧ i.length ≤ Config.maxLength)

/-- One byte string of each family, written out from the encodings of `30_encoding.md`. -/
def Obligations.WrittenOutBytesDecode : Prop :=
  decode [0b10001000, 0b11100000] = .ok (.movRm8R8 4 (.register 0), []) ∧
  decode [0b10001001, 0b01001110, 0b00001010] = .ok (.movRm16R16 1 (.disp8 6 10), []) ∧
  decode [0b10001010, 0b00000000] = .ok (.movR8Rm8 0 (.indirect 0), []) ∧
  decode [0b10001011, 0b10010011, 0b11111110, 0b11111111] = .ok (.movR16Rm16 2 (.disp16 3 0xFFFE), []) ∧
  decode [0b10110001, 0b00001100] = .ok (.movR8Imm8 1 12, []) ∧
  decode [0b10111001, 0b00001100, 0b00000000] = .ok (.movR16Imm16 1 12, []) ∧
  decode [0b11000110, 0b00000110, 0b00110100, 0b00010010, 0b10000000] = .ok (.movRm8Imm8 (.direct 0x1234) 128, []) ∧
  decode [0b11000111, 0b00000111, 0b00001100, 0b00000000] = .ok (.movRm16Imm16 (.indirect 7) 12, []) ∧
  decode [0b10100000, 0b00000001, 0b00000010] = .ok (.movAlAddr 0x0201, []) ∧
  decode [0b10100011, 0b11111111, 0b11111111] = .ok (.movAddrAx 0xFFFF, []) ∧
  decode [0b10010000, 0b00000000] = .ok (.unsupportedFirstByte 0x90, [0])

/-! ## The step -/

/-- A step in Reading, inside the stream, runs the instruction that the bytes at the cursor decode to (`47_driver_and_output.md` R171,
R176). The step adds nothing round `exec`. -/
def Obligations.StepRunsTheDecodedInstruction : Prop :=
  ∀ (s : State) (i : Instr) (rest : List Byte), s.st = .reading → s.pos < s.len → decode s.window = .ok (i, rest) →
    step s = exec i s

/-- Where the bytes of a well-formed instruction stand at the cursor, a step in Reading runs it. -/
def Obligations.StepRunsTheEncodedInstruction : Prop :=
  ∀ (s : State) (i : Instr), i.wf = true → s.st = .reading → HoldsAtCursor s (encode i) → step s = exec i s

/-- Where the stream ends inside the bytes of a well-formed instruction, the step does what its meaning does: the decoder and the
meaning see the same missing byte, at the same stage (`60_exceptions.md` R201, R206). -/
def Obligations.StepOnACutInstructionRunsIt : Prop :=
  ∀ (s : State) (i : Instr), i.wf = true → s.st = .reading → s.pos < s.len → s.len < s.pos + i.length →
    (∀ k, s.pos + k < s.len → s.readByte (s.pos + k) = (encode i)[k]?) → step s = exec i s

/-- The two-stage step of the model (decode the bytes, run the instruction) is the driver's step as the spec writes it
(`47_driver_and_output.md` R176 with R171 and the routines it calls), in every state whose cursor lies in the stream. -/
def Obligations.StepIsTheDriverStep : Prop :=
  ∀ s : State, s.pos ≤ s.len → step s = .next (driverStep s)

/-- Clean end (`47_driver_and_output.md` R177; that Done is entered by a step of its own is the spec's decision D15). -/
def Obligations.CleanEndEntersDone : Prop :=
  ∀ s : State, s.st = .reading → s.pos = s.len → step s = .next { s with st := .done }

/-- Done and Failed are absorbing (`47_driver_and_output.md` R179, the spec's decision D4). -/
def Obligations.HaltedStatesAbsorb : Prop :=
  ∀ s : State, s.st = .done ∨ s.st = .failed → step s = .next s

/-- Reset (`10_state.md` R36, `70_reset_and_hazards.md` R230, the spec's decisions D5 and D16): in any state the four pieces of state take
their reset values and the inputs stay. `State.reset` is the reset state on the empty stream, the model's choice (log entry 2). -/
def Obligations.ResetGivesTheResetValues : Prop :=
  (∀ s : State, s.applyReset = { mem := s.mem, len := s.len, pos := 0, st := .reading, err := none, out := [] }) ∧
  State.reset = { mem := [], len := 0, pos := 0, st := .reading, err := none, out := [] }

/-! ## The instructions -/

/-- `MOV r/m8, r8` (`43_mov_rm_reg.md` R131). -/
def Obligations.MovRm8R8DecodesAndEmits : Prop := RmRegRule 0x88 .movRm8R8 .byte false

/-- `MOV r/m16, r16` (`43_mov_rm_reg.md` R132). -/
def Obligations.MovRm16R16DecodesAndEmits : Prop := RmRegRule 0x89 .movRm16R16 .word false

/-- `MOV r8, r/m8` (`43_mov_rm_reg.md` R133). -/
def Obligations.MovR8Rm8DecodesAndEmits : Prop := RmRegRule 0x8A .movR8Rm8 .byte true

/-- `MOV r16, r/m16` (`43_mov_rm_reg.md` R134). -/
def Obligations.MovR16Rm16DecodesAndEmits : Prop := RmRegRule 0x8B .movR16Rm16 .word true

/-- `MOV r8, imm8` (`44_mov_imm_reg.md` R141), for each of its eight first bytes. -/
def Obligations.MovR8Imm8DecodesAndEmits : Prop :=
  ∀ (s : State) (code : Nat), code < 8 → s.st = .reading → s.readByte s.pos = some (BitVec.ofNat 8 (0xB0 + code)) →
    (s.readByte (s.pos + 1) = none → Truncates s .immediate) ∧
    ∀ v, s.readByte (s.pos + 1) = some v →
      Runs s (.movR8Imm8 (BitVec.ofNat 3 code) v) 2 (movOf (reg .byte code) (imm8 v))

/-- `MOV r16, imm16` (`44_mov_imm_reg.md` R142), for each of its eight first bytes. -/
def Obligations.MovR16Imm16DecodesAndEmits : Prop :=
  ∀ (s : State) (code : Nat), code < 8 → s.st = .reading → s.readByte s.pos = some (BitVec.ofNat 8 (0xB8 + code)) →
    (s.readByte (s.pos + 2) = none → Truncates s .immediate) ∧
    ∀ lo hi, s.readByte (s.pos + 1) = some lo → s.readByte (s.pos + 2) = some hi →
      Runs s (.movR16Imm16 (BitVec.ofNat 3 code) (BitVec.ofNat 16 (pair lo hi))) 3 (movOf (reg .word code) (imm16 lo hi))

/-- `MOV r/m8, imm8` (`45_mov_imm_rm.md` R151) where byte 2 has `reg = 0`: TruncatedStream where a byte is missing, else the value.
The other values of the field are `NonZeroRegFieldIsInvalid`, the spec's decision D9. -/
def Obligations.MovRm8Imm8DecodesAndEmits : Prop :=
  ∀ s : State, s.st = .reading → s.readByte s.pos = some 0xC6 →
    (s.readByte (s.pos + 1) = none → Truncates s .modrm) ∧
    ImmRmForms s .byte fun k f m =>
      (s.readByte (s.pos + k) = none → Truncates s .immediate) ∧
      ∀ v, s.readByte (s.pos + k) = some v → Runs s (.movRm8Imm8 f v) (k + 1) (movOf m (imm8 v))

/-- `MOV r/m16, imm16` (`45_mov_imm_rm.md` R152) where byte 2 has `reg = 0`. -/
def Obligations.MovRm16Imm16DecodesAndEmits : Prop :=
  ∀ s : State, s.st = .reading → s.readByte s.pos = some 0xC7 →
    (s.readByte (s.pos + 1) = none → Truncates s .modrm) ∧
    ImmRmForms s .word fun k f m =>
      (s.readByte (s.pos + (k + 1)) = none → Truncates s .immediate) ∧
      ∀ lo hi, s.readByte (s.pos + k) = some lo → s.readByte (s.pos + (k + 1)) = some hi →
        Runs s (.movRm16Imm16 f (BitVec.ofNat 16 (pair lo hi))) (k + 2) (movOf m (imm16 lo hi))

/-- `MOV AL, [addr]` (`46_mov_acc_mem.md` R160). -/
def Obligations.MovAlAddrDecodesAndEmits : Prop := AccumulatorRule 0xA0 .movAlAddr fun m => movOf (.register .al) m

/-- `MOV AX, [addr]` (`46_mov_acc_mem.md` R161). -/
def Obligations.MovAxAddrDecodesAndEmits : Prop := AccumulatorRule 0xA1 .movAxAddr fun m => movOf (.register .ax) m

/-- `MOV [addr], AL` (`46_mov_acc_mem.md` R162). -/
def Obligations.MovAddrAlDecodesAndEmits : Prop := AccumulatorRule 0xA2 .movAddrAl fun m => movOf m (.register .al)

/-- `MOV [addr], AX` (`46_mov_acc_mem.md` R163). -/
def Obligations.MovAddrAxDecodesAndEmits : Prop := AccumulatorRule 0xA3 .movAddrAx fun m => movOf m (.register .ax)

/-- A first byte that no pattern matches (`60_exceptions.md` R202): the meaning of the table's last row takes UnsupportedOpcode, and so does
the step, whether or not a byte follows. That the halt is the state Failed and leaves the cursor is the spec's decision (D4, D6). -/
def Obligations.UnsupportedFirstByteHalts : Prop :=
  ∀ (s : State) (b : Byte), s.readByte s.pos = some b →
    exec (.unsupportedFirstByte b) s =
      .next { s with st := .failed, err := some ⟨.unsupportedOpcode, s.pos, b, .classify⟩ } ∧
    (s.st = .reading → inUnsupportedRange b = true → step s = exec (.unsupportedFirstByte b) s)

/-- C6 and C7 with a non-zero `reg` field (`60_exceptions.md` R203, the spec's decision D9): InvalidFieldCombination at stage modrm,
before any further byte is read. -/
def Obligations.NonZeroRegFieldIsInvalid : Prop :=
  ∀ (s : State) (b1 b2 : Byte), s.st = .reading → s.readByte s.pos = some b1 → b1 = 0xC6 ∨ b1 = 0xC7 →
    s.readByte (s.pos + 1) = some b2 → b2.toNat / 8 % 8 ≠ 0 →
    step s = .next { s with st := .failed, err := some ⟨.invalidFieldCombination, s.pos, b1, .modrm⟩ }

/-- A cut instruction (`60_exceptions.md` R201, R204, R206, R208; the record's content and the cursor staying put are the spec's
decisions D8 and D6): the meaning takes TruncatedStream at the stage of the first missing byte and changes nothing else. -/
def Obligations.CutInstructionTakesTruncatedStream : Prop :=
  ∀ (i : Instr) (s : State) (b : Byte), isMov i = true → s.readByte s.pos = some b → s.len < s.pos + i.length →
    exec i s = .next { s with st := .failed, err := some ⟨.truncatedStream, s.pos, b, stageAt i (s.len - s.pos)⟩ }

/-- A whole instruction: every one of the twelve runs in every state in which its bytes fit, and emits one value at the cursor with its
length, moves the cursor past it and changes nothing else (`47_driver_and_output.md` R174, R176; that `st` stays Reading is D15). -/
def Obligations.WholeInstructionIsEmitted : Prop :=
  ∀ (i : Instr) (s : State), isMov i = true → s.pos + i.length ≤ s.len →
    ∃ v, exec i s = .next { s with pos := s.pos + i.length, out := s.out ++ [⟨s.pos, i.length, v⟩] }

/-- The frame of every instruction: the stream, every byte of it and its length are unchanged; and either one entry is appended and
the cursor moves by the instruction's length, with `st` and `err` unchanged, or an error is taken, with the cursor and `OUT`
unchanged (`20_memory.md` R43, `47_driver_and_output.md` R176, R178). -/
def Obligations.InstructionFrame : Prop :=
  ∀ (i : Instr) (s t : State), exec i s = .next t →
    t.mem = s.mem ∧ t.len = s.len ∧ (∀ a, t.readByte a = s.readByte a) ∧
    ((t.st = s.st ∧ t.err = s.err ∧ t.pos = s.pos + i.length ∧ ∃ v, t.out = s.out ++ [⟨s.pos, i.length, v⟩]) ∨
     (t.st = .failed ∧ t.pos = s.pos ∧ t.out = s.out ∧ ∃ e, t.err = some e ∧ e.offset = s.pos ∧ s.readByte s.pos = some e.byte))

/-! ## Whole-machine rules -/

/-- `20_memory.md` R43: no step writes the stream. -/
def Obligations.NoStepWritesTheStream : Prop :=
  ∀ s t : State, step s = .next t →
    t.len = s.len ∧ (∀ a, t.readByte a = s.readByte a) ∧ ∀ a n, t.memRead a n = s.memRead a n

/-- `10_state.md` R33: what a step yields depends on the stream bytes from the cursor on and on nothing else; two states in Reading
that have the same bytes ahead (six are enough) yield the same, whatever their histories and cursors. -/
def Obligations.DecodeDependsOnlyOnTheBytesAhead : Prop :=
  ∀ s s' : State, s.st = .reading → s'.st = .reading → s.pos < s.len → s'.pos < s'.len →
    (∀ k, k < 6 → s.readByte (s.pos + k) = s'.readByte (s'.pos + k)) →
    ∃ r t t', step s = .next t ∧ step s' = .next t' ∧ Yields s t r ∧ Yields s' t' r

/-- A step never moves the cursor back: it leaves the cursor and `OUT`, or appends one entry that stands at the cursor and moves past
it by 2 to 6 bytes within the stream (`10_state.md` R22, R26; that the cursor has no width is D2). -/
def Obligations.CursorAdvancesByWholeInstructions : Prop :=
  ∀ s t : State, step s = .next t →
    (t.pos = s.pos ∧ t.out = s.out) ∨
    (∃ e, t.out = s.out ++ [e] ∧ e.offset = s.pos ∧ t.pos = s.pos + e.length ∧ 2 ≤ e.length ∧ e.length ≤ 6 ∧
      t.pos ≤ s.len ∧ t.st = .reading ∧ s.st = .reading)

/-- The contract of `decode_one` (`47_driver_and_output.md` R170, R174; `10_state.md` R30 to R32): a value that meets the data model, of 2 to 6
bytes that lie in the stream. -/
def Obligations.DecodeOneMeetsItsContract : Prop :=
  ∀ (s : State) (p : Nat) (v : Instruction) (n : Nat), p < s.len → decodeOne s p = .ok (v, n) →
    2 ≤ n ∧ n ≤ 6 ∧ p + n ≤ s.len ∧ instructionOk v

/-- Which first byte can raise what (`60_exceptions.md` R205), with the record's offset and byte (the spec's decision D8). -/
def Obligations.ErrorsByFormat : Prop :=
  ∀ (s : State) (p : Nat) (e : ErrorRecord), p < s.len → decodeOne s p = .error e →
    e.offset = p ∧ s.readByte p = some e.byte ∧
    ((classify e.byte = none ∧ e.kind = .unsupportedOpcode ∧ e.stage = .classify) ∨
     (classify e.byte = some .rmReg ∧ e.kind = .truncatedStream ∧
       (e.stage = .modrm ∨ e.stage = .displacement ∨ e.stage = .address)) ∨
     (classify e.byte = some .immReg ∧ e.kind = .truncatedStream ∧ e.stage = .immediate) ∨
     (classify e.byte = some .immRm ∧ e.kind = .truncatedStream ∧
       (e.stage = .modrm ∨ e.stage = .displacement ∨ e.stage = .address ∨ e.stage = .immediate)) ∨
     (classify e.byte = some .immRm ∧ e.kind = .invalidFieldCombination ∧ e.stage = .modrm) ∨
     ((classify e.byte = some .memAcc ∨ classify e.byte = some .accMem) ∧ e.kind = .truncatedStream ∧ e.stage = .address))

/-- Redundant encodings (`30_encoding.md` R75): each of the two encodings of one move runs, and both emit the same value. -/
def Obligations.RedundantEncodingsEmitOneValue : Prop :=
  ∀ (s : State), s.pos + 6 ≤ s.len →
    let same := fun i j => ∃ v, (∃ t, exec i s = .next t ∧ t.out = s.out ++ [⟨s.pos, i.length, v⟩]) ∧
      ∃ t, exec j s = .next t ∧ t.out = s.out ++ [⟨s.pos, j.length, v⟩]
    (∀ a b, same (.movRm8R8 a (.register b)) (.movR8Rm8 b (.register a))) ∧
    (∀ a b, same (.movRm16R16 a (.register b)) (.movR16Rm16 b (.register a))) ∧
    (∀ a, same (.movAlAddr a) (.movR8Rm8 0 (.direct a))) ∧ (∀ a, same (.movAxAddr a) (.movR16Rm16 0 (.direct a))) ∧
    (∀ a, same (.movAddrAl a) (.movRm8R8 0 (.direct a))) ∧ (∀ a, same (.movAddrAx a) (.movRm16R16 0 (.direct a))) ∧
    (∀ c v, same (.movR8Imm8 c v) (.movRm8Imm8 (.register c) v)) ∧
    (∀ c v, same (.movR16Imm16 c v) (.movRm16Imm16 (.register c) v))

/-- The decode is injective on IMM_REG (`44_mov_imm_reg.md` R143 (c)): two instructions that emit one value are one. -/
def Obligations.ImmRegValuesTellTheEncoding : Prop :=
  ∀ (i j : Instr) (s t u : State) (v : Instruction), isImmReg i = true → isImmReg j = true →
    exec i s = .next t → t.out = s.out ++ [⟨s.pos, i.length, v⟩] →
    exec j s = .next u → u.out = s.out ++ [⟨s.pos, j.length, v⟩] → encode i = encode j

/-! ## Invariants -/

/-- Every step keeps the invariant: the stream canonical, the cursor in it, the error record the true cause of the halt, Done only
at the end, and `OUT` exactly what `decode_one` gives from index 0 to the cursor, with no gap. -/
def Obligations.EveryStepKeepsTheInvariant : Prop :=
  ∀ s t : State, s.Inv → step s = .next t → t.Inv

/-- The invariant holds after reset. -/
def Obligations.ResetMeetsTheInvariant : Prop := State.reset.Inv

/-- The invariant holds where a run on any stream begins. -/
def Obligations.EveryBootedStreamMeetsTheInvariant : Prop := ∀ bytes : List Byte, (State.boot bytes).Inv

/-- From a state of the invariant every step gives a next state: the machine is never stuck (`47_driver_and_output.md` R173, R180). -/
def Obligations.InvariantStatesAlwaysStep : Prop :=
  ∀ s : State, s.Inv → ∃ t, step s = .next t

/-- Termination (`47_driver_and_output.md` R180): from every state of the invariant, half the bytes ahead and one more step reach Done or
Failed, and the invariant holds there. -/
def Obligations.EveryRunHaltsWithinItsBound : Prop :=
  ∀ s : State, s.Inv →
    ∃ t : State, Host.Core.run Sys2Proof.core ((s.len - s.pos) / 2 + 1) s = .next t ∧ (t.st = .done ∨ t.st = .failed) ∧ t.Inv

/-- A booted state holds exactly its stream (`20_memory.md` R40, R41); the sparse list is the model's own (log entry 1). -/
def Obligations.BootedStateHoldsItsStream : Prop :=
  ∀ (bytes : List Byte), (State.boot bytes).len = bytes.length ∧ (∀ i, (State.boot bytes).readByte i = bytes[i]?) ∧
    ∀ a n, (State.boot bytes).memRead a n = if a + n ≤ bytes.length then some ((bytes.drop a).take n) else none

/-- Placing a table word at the cursor makes the very next step run the instruction it decodes to (the model's load, log entry 2). -/
def Obligations.PlacedWordRunsNext : Prop :=
  ∀ (s : State) (nbits w : Nat) (i : Instr), Memory.wf s.mem = true → decodeTableWord nbits w = some i →
    step (s.withFetchWord nbits w) = exec i (s.withFetchWord nbits w)

/-! ## The canonical text -/

/-- `47_driver_and_output.md` R184: a register renders as its name in capitals. -/
def Obligations.RegistersRenderAsTheirNames : Prop :=
  ["AL", "CL", "DL", "BL", "AH", "CH", "DH", "BH"] =
      (registerColumn .byte).map (fun r => String.ofList (renderOperand (.register r))) ∧
  ["AX", "CX", "DX", "BX", "SP", "BP", "SI", "DI"] =
      (registerColumn .word).map (fun r => String.ofList (renderOperand (.register r)))

/-- An immediate renders as the unsigned decimal of its pattern, without leading zeros (`47_driver_and_output.md` R186, the spec's
decision D10). -/
def Obligations.ImmediateTextIsUnsignedDecimal : Prop :=
  ∀ (v : Word16) (w : Width),
    IsDecimalOf (renderOperand (.immediate v w)) v.toNat

/-- A direct address renders in brackets, as `0x` and four hexadecimal digits with capitals (`47_driver_and_output.md` R185, the spec's
decision D12). -/
def Obligations.DirectAddressTextIsFourHexDigits : Prop :=
  ∀ a : Word16, ∃ c3 c2 c1 c0, c3 ∈ hexDigits ∧ c2 ∈ hexDigits ∧ c1 ∈ hexDigits ∧ c0 ∈ hexDigits ∧
    renderOperand (.memory ⟨[], none, some a⟩) = ['[', '0', 'x', c3, c2, c1, c0, ']'] ∧
    hexDigits.idxOf c3 * 4096 + hexDigits.idxOf c2 * 256 + hexDigits.idxOf c1 * 16 + hexDigits.idxOf c0 = a.toNat

/-- A table operand renders as its components joined by " + " and the displacement with its sign, nothing for zero
(`47_driver_and_output.md` R185, the spec's decision D11). -/
def Obligations.MemoryTextJoinsComponents : Prop :=
  ∀ (rm : Nat) (d : Int), rm < 8 →
    let names := List.intercalate " + ".toList ((baseRows.getD rm []).map renderRegister)
    renderOperand (mem rm none) = "[".toList ++ names ++ "]".toList ∧
    (d = 0 → renderOperand (mem rm (some d)) = "[".toList ++ names ++ "]".toList) ∧
    (0 < d → ∃ text, renderOperand (mem rm (some d)) = "[".toList ++ names ++ " + ".toList ++ text ++ "]".toList ∧
      IsDecimalOf text d.toNat) ∧
    (d < 0 → ∃ text, renderOperand (mem rm (some d)) = "[".toList ++ names ++ " - ".toList ++ text ++ "]".toList ∧
      IsDecimalOf text (-d).toNat)

/-- The line of an instruction: the mnemonic, the destination first, a comma and a space between (`47_driver_and_output.md` R183, the
spec's decision D13). -/
def Obligations.LinePutsTheDestinationFirst : Prop :=
  ∀ dst src : Operand, (render (movOf dst src)).toList =
    "MOV ".toList ++ renderOperand dst ++ ", ".toList ++ renderOperand src
end

