-- ==== Sys2Proof/Laws/Decode.lean ====
section
/-! SUPPORT. The laws of the decoder's parts: byte order, the fields of an addressing byte, the first bytes of the formats, the
reading primitives, and the operand decoder against the encoder. -/

namespace Sys2Proof

/-! ## Byte order -/

theorem joinBytes_toNat (hi lo : Byte) : (joinBytes hi lo).toNat = hi.toNat * 256 + lo.toNat := by
  have h := lo.isLt
  rw [joinBytes, BitVec.toNat_append, ← Nat.shiftLeft_add_eq_or_of_lt h, Nat.shiftLeft_eq]

theorem lowByte_toNat (w : Word16) : (lowByte w).toNat = w.toNat % 256 := by
  simp [lowByte]

theorem highByte_toNat (w : Word16) : (highByte w).toNat = w.toNat / 256 := by
  have := w.isLt
  simp only [highByte, BitVec.extractLsb'_toNat, Nat.shiftRight_eq_div_pow]
  omega

@[simp] theorem joinBytes_high_low (w : Word16) : joinBytes (highByte w) (lowByte w) = w := by
  apply BitVec.eq_of_toNat_eq
  rw [joinBytes_toNat, lowByte_toNat, highByte_toNat]
  omega

@[simp] theorem lowByte_join (hi lo : Byte) : lowByte (joinBytes hi lo) = lo := by
  apply BitVec.eq_of_toNat_eq
  rw [lowByte_toNat, joinBytes_toNat]
  omega

@[simp] theorem highByte_join (hi lo : Byte) : highByte (joinBytes hi lo) = hi := by
  apply BitVec.eq_of_toNat_eq
  rw [highByte_toNat, joinBytes_toNat]
  omega

/-! ## The fields of a byte -/

theorem fields_of_append : ∀ (m : BitVec 2) (r c : BitVec 3),
    extract (m ++ r ++ c) 1 2 = m ∧ extract (m ++ r ++ c) 3 3 = r ∧ extract (m ++ r ++ c) 6 3 = c := by
  decide

theorem append_of_fields : ∀ b : Byte, extract b 1 2 ++ extract b 3 3 ++ extract b 6 3 = b := by
  decide

@[simp] theorem RmField.mod_of_addressingByte (f : RmField) (reg : BitVec 3) :
    extract (f.addressingByte reg) 1 2 = f.mod := (fields_of_append _ _ _).1

@[simp] theorem RmField.reg_of_addressingByte (f : RmField) (reg : BitVec 3) :
    extract (f.addressingByte reg) 3 3 = reg := (fields_of_append _ _ _).2.1

@[simp] theorem RmField.rm_of_addressingByte (f : RmField) (reg : BitVec 3) :
    extract (f.addressingByte reg) 6 3 = f.rmCode := (fields_of_append _ _ _).2.2

/-! ## First bytes -/

/-- The first byte of every format, by its fields. -/
theorem classify_immReg : ∀ (w : BitVec 1) (reg : BitVec 3),
    classify (0b1011#4 ++ w ++ reg) = some .immReg ∧
    extract (0b1011#4 ++ w ++ reg) 5 1 = w ∧ extract (0b1011#4 ++ w ++ reg) 6 3 = reg := by
  decide

/-- A first byte is refused exactly when it lies in the ranges of `30_encoding.md` R72. -/
theorem classify_eq_none_iff : ∀ b : Byte, classify b = none ↔ inUnsupportedRange b = true := by
  decide

/-- What `classify` tells of the byte's value. -/
theorem classify_cases : ∀ b : Byte,
    (classify b = some .immReg → b = 0b1011#4 ++ extract b 5 1 ++ extract b 6 3) ∧
    (classify b = some .rmReg → b = 0b100010#6 ++ extract b 7 1 ++ extract b 8 1) ∧
    (classify b = some .immRm → b = 0b1100011#7 ++ extract b 8 1) ∧
    (classify b = some .memAcc → b = 0b1010000#7 ++ extract b 8 1) ∧
    (classify b = some .accMem → b = 0b1010001#7 ++ extract b 8 1) := by
  decide

/-! ## The reading primitives -/

@[simp] theorem Parsed.andThen_ok {α β : Type} (a : α) (rest : List Byte) (k : α → List Byte → Parsed β) :
    Parsed.andThen (.ok (a, rest)) k = k a rest := rfl

@[simp] theorem Parsed.andThen_error {α β : Type} (e : DecodeError) (k : α → List Byte → Parsed β) :
    Parsed.andThen (.error e : Parsed α) k = .error e := rfl

/-- A read followed by another gives a value exactly when both do. -/
theorem Parsed.andThen_eq_ok {α β : Type} {p : Parsed α} {k : α → List Byte → Parsed β} {r : β × List Byte} :
    Parsed.andThen p k = .ok r ↔ ∃ a rest, p = .ok (a, rest) ∧ k a rest = .ok r := by
  rcases p with e | ⟨a, rest⟩ <;> simp [Parsed.andThen]

/-- A read followed by another is refused exactly when the first is, or the second after it. -/
theorem Parsed.andThen_eq_error {α β : Type} {p : Parsed α} {k : α → List Byte → Parsed β} {e : DecodeError} :
    Parsed.andThen p k = .error e ↔ p = .error e ∨ ∃ a rest, p = .ok (a, rest) ∧ k a rest = .error e := by
  rcases p with e | ⟨a, rest⟩ <;> simp [Parsed.andThen]

@[simp] theorem takeByte_cons (g : Stage) (b : Byte) (rest : List Byte) : takeByte g (b :: rest) = .ok (b, rest) := rfl

@[simp] theorem takeByte_nil (g : Stage) : takeByte g [] = .error (.truncatedStream g) := rfl

@[simp] theorem takeWord_cons (g : Stage) (lo hi : Byte) (rest : List Byte) :
    takeWord g (lo :: hi :: rest) = .ok (joinBytes hi lo, rest) := rfl

@[simp] theorem takeWord_one (g : Stage) (b : Byte) : takeWord g [b] = .error (.truncatedStream g) := rfl

@[simp] theorem takeWord_nil (g : Stage) : takeWord g [] = .error (.truncatedStream g) := rfl

theorem takeByte_eq_ok {g : Stage} {bs rest : List Byte} {b : Byte} :
    takeByte g bs = .ok (b, rest) ↔ bs = b :: rest := by
  cases bs <;> simp [takeByte]

theorem takeWord_eq_ok {g : Stage} {bs rest : List Byte} {w : Word16} :
    takeWord g bs = .ok (w, rest) ↔ bs = lowByte w :: highByte w :: rest := by
  match bs with
  | [] => simp
  | [_] => simp
  | lo :: hi :: bs =>
    simp only [takeWord_cons, Except.ok.injEq, Prod.mk.injEq, List.cons.injEq]
    constructor
    · rintro ⟨rfl, rfl⟩; simp
    · rintro ⟨rfl, rfl, rfl⟩; simp

theorem takeByte_eq_error {g : Stage} {bs : List Byte} {e : DecodeError} :
    takeByte g bs = .error e ↔ bs = [] ∧ e = .truncatedStream g := by
  cases bs <;> simp [takeByte, eq_comm]

theorem takeWord_eq_error {g : Stage} {bs : List Byte} {e : DecodeError} :
    takeWord g bs = .error e ↔ bs.length < 2 ∧ e = .truncatedStream g := by
  match bs with
  | [] => simp [eq_comm]
  | [_] => simp [eq_comm]
  | lo :: hi :: bs => simp

/-! ## The operand decoder against the encoder -/

/-- The operand decoder reads back every form. -/
theorem decodeRm_of_form {f : RmField} (h : f.wf = true) (rest : List Byte) :
    decodeRm f.mod f.rmCode (f.tail ++ rest) = .ok (f, rest) := by
  cases f with
  | register code => rfl
  | indirect rm =>
    have hrm : rm ≠ 6#3 := by simpa [RmField.wf] using h
    simp [decodeRm, RmField.mod, RmField.rmCode, RmField.tail, hrm]
  | direct addr => simp [decodeRm, RmField.mod, RmField.rmCode, RmField.tail]
  | disp8 rm d => simp [decodeRm, RmField.mod, RmField.rmCode, RmField.tail]
  | disp16 rm d => simp [decodeRm, RmField.mod, RmField.rmCode, RmField.tail]

theorem mod_cases : ∀ m : BitVec 2, m = 0 ∨ m = 1 ∨ m = 2 ∨ m = 3 := by
  decide

/-- What the operand decoder reads is a form, and its fields and bytes are those it was given. -/
theorem decodeRm_eq_ok {m : BitVec 2} {rm : BitVec 3} {bs rest : List Byte} {f : RmField}
    (h : decodeRm m rm bs = .ok (f, rest)) : f.wf = true ∧ f.mod = m ∧ f.rmCode = rm ∧ bs = f.tail ++ rest := by
  have hm := mod_cases m
  unfold decodeRm at h
  split_ifs at h with h3 h06 h0 h1
  · obtain ⟨rfl, rfl⟩ : RmField.register rm = f ∧ bs = rest := by simpa using h
    exact ⟨rfl, h3.symm, rfl, rfl⟩
  · obtain ⟨a, bs', ht, hk⟩ := Parsed.andThen_eq_ok.1 h
    obtain ⟨rfl, rfl⟩ : RmField.direct a = f ∧ bs' = rest := by simpa using hk
    rw [takeWord_eq_ok] at ht
    exact ⟨rfl, h06.1.symm, h06.2.symm, ht⟩
  · obtain ⟨rfl, rfl⟩ : RmField.indirect rm = f ∧ bs = rest := by simpa using h
    exact ⟨by simpa [RmField.wf] using fun hr => h06 ⟨h0, hr⟩, h0.symm, rfl, rfl⟩
  · obtain ⟨a, bs', ht, hk⟩ := Parsed.andThen_eq_ok.1 h
    obtain ⟨rfl, rfl⟩ : RmField.disp8 rm a = f ∧ bs' = rest := by simpa using hk
    rw [takeByte_eq_ok] at ht
    exact ⟨rfl, h1.symm, rfl, ht⟩
  · obtain ⟨a, bs', ht, hk⟩ := Parsed.andThen_eq_ok.1 h
    obtain ⟨rfl, rfl⟩ : RmField.disp16 rm a = f ∧ bs' = rest := by simpa using hk
    rw [takeWord_eq_ok] at ht
    exact ⟨rfl, by simp_all [RmField.mod], rfl, ht⟩

/-- The operand decoder refuses only a form whose bytes are not all there. -/
theorem decodeRm_cut {f : RmField} {n : Nat} (h : f.wf = true) (hn : n < f.tail.length) :
    ∃ g, decodeRm f.mod f.rmCode (f.tail.take n) = .error (.truncatedStream g) ∧
      (g = .displacement ∨ g = .address) := by
  cases f with
  | register code => simp [RmField.tail] at hn
  | indirect rm => simp [RmField.tail] at hn
  | direct addr =>
    refine ⟨.address, ?_, .inr rfl⟩
    have : n = 0 ∨ n = 1 := by simp only [RmField.tail, List.length_cons, List.length_nil] at hn; omega
    rcases this with rfl | rfl <;> simp [decodeRm, RmField.mod, RmField.rmCode, RmField.tail]
  | disp8 rm d =>
    refine ⟨.displacement, ?_, .inl rfl⟩
    have : n = 0 := by simp only [RmField.tail, List.length_cons, List.length_nil] at hn; omega
    subst this; simp [decodeRm, RmField.mod, RmField.rmCode, RmField.tail]
  | disp16 rm d =>
    refine ⟨.displacement, ?_, .inl rfl⟩
    have : n = 0 ∨ n = 1 := by simp only [RmField.tail, List.length_cons, List.length_nil] at hn; omega
    rcases this with rfl | rfl <;> simp [decodeRm, RmField.mod, RmField.rmCode, RmField.tail]

end Sys2Proof
end

