-- ==== Sys2Proof/Laws/State.lean ====
section
/-! SUPPORT. One lemma for each field of each update of the state, so that no proof unfolds a record update. -/

namespace Sys2Proof.Machine

@[simp] theorem State.setDone_mem (s : State) : s.setDone.mem = s.mem := rfl
@[simp] theorem State.setDone_len (s : State) : s.setDone.len = s.len := rfl
@[simp] theorem State.setDone_pos (s : State) : s.setDone.pos = s.pos := rfl
@[simp] theorem State.setDone_st (s : State) : s.setDone.st = .done := rfl
@[simp] theorem State.setDone_err (s : State) : s.setDone.err = s.err := rfl
@[simp] theorem State.setDone_out (s : State) : s.setDone.out = s.out := rfl

@[simp] theorem State.setFailed_mem (s : State) (e : ErrorRecord) : (s.setFailed e).mem = s.mem := rfl
@[simp] theorem State.setFailed_len (s : State) (e : ErrorRecord) : (s.setFailed e).len = s.len := rfl
@[simp] theorem State.setFailed_pos (s : State) (e : ErrorRecord) : (s.setFailed e).pos = s.pos := rfl
@[simp] theorem State.setFailed_st (s : State) (e : ErrorRecord) : (s.setFailed e).st = .failed := rfl
@[simp] theorem State.setFailed_err (s : State) (e : ErrorRecord) : (s.setFailed e).err = some e := rfl
@[simp] theorem State.setFailed_out (s : State) (e : ErrorRecord) : (s.setFailed e).out = s.out := rfl

@[simp] theorem State.emit_mem (s : State) (n : Nat) (i : Instruction) : (s.emit n i).mem = s.mem := rfl
@[simp] theorem State.emit_len (s : State) (n : Nat) (i : Instruction) : (s.emit n i).len = s.len := rfl
@[simp] theorem State.emit_pos (s : State) (n : Nat) (i : Instruction) : (s.emit n i).pos = s.pos + n := rfl
@[simp] theorem State.emit_st (s : State) (n : Nat) (i : Instruction) : (s.emit n i).st = s.st := rfl
@[simp] theorem State.emit_err (s : State) (n : Nat) (i : Instruction) : (s.emit n i).err = s.err := rfl
@[simp] theorem State.emit_out (s : State) (n : Nat) (i : Instruction) :
    (s.emit n i).out = s.out ++ [{ offset := s.pos, length := n, instr := i }] := rfl

@[simp] theorem State.loadStream_mem (s : State) (bs : List Byte) :
    (s.loadStream bs).mem = Memory.writeBytes [] 0 bs := rfl
@[simp] theorem State.loadStream_len (s : State) (bs : List Byte) : (s.loadStream bs).len = bs.length := rfl
@[simp] theorem State.loadStream_pos (s : State) (bs : List Byte) : (s.loadStream bs).pos = s.pos := rfl
@[simp] theorem State.loadStream_st (s : State) (bs : List Byte) : (s.loadStream bs).st = s.st := rfl
@[simp] theorem State.loadStream_err (s : State) (bs : List Byte) : (s.loadStream bs).err = s.err := rfl
@[simp] theorem State.loadStream_out (s : State) (bs : List Byte) : (s.loadStream bs).out = s.out := rfl

@[simp] theorem State.applyReset_mem (s : State) : s.applyReset.mem = s.mem := rfl
@[simp] theorem State.applyReset_len (s : State) : s.applyReset.len = s.len := rfl
@[simp] theorem State.applyReset_pos (s : State) : s.applyReset.pos = 0 := rfl
@[simp] theorem State.applyReset_st (s : State) : s.applyReset.st = .reading := rfl
@[simp] theorem State.applyReset_err (s : State) : s.applyReset.err = none := rfl
@[simp] theorem State.applyReset_out (s : State) : s.applyReset.out = [] := rfl

@[simp] theorem State.boot_mem (bs : List Byte) : (State.boot bs).mem = Memory.writeBytes [] 0 bs := rfl
@[simp] theorem State.boot_len (bs : List Byte) : (State.boot bs).len = bs.length := rfl
@[simp] theorem State.boot_pos (bs : List Byte) : (State.boot bs).pos = 0 := rfl
@[simp] theorem State.boot_st (bs : List Byte) : (State.boot bs).st = .reading := rfl
@[simp] theorem State.boot_err (bs : List Byte) : (State.boot bs).err = none := rfl
@[simp] theorem State.boot_out (bs : List Byte) : (State.boot bs).out = [] := rfl

@[simp] theorem State.placeAtCursor_mem (s : State) (bs : List Byte) :
    (s.placeAtCursor bs).mem = Memory.writeBytes s.mem s.pos bs := rfl
@[simp] theorem State.placeAtCursor_len (s : State) (bs : List Byte) :
    (s.placeAtCursor bs).len = max s.len (s.pos + bs.length) := rfl
@[simp] theorem State.placeAtCursor_pos (s : State) (bs : List Byte) : (s.placeAtCursor bs).pos = s.pos := rfl
@[simp] theorem State.placeAtCursor_st (s : State) (bs : List Byte) : (s.placeAtCursor bs).st = .reading := rfl
@[simp] theorem State.placeAtCursor_err (s : State) (bs : List Byte) : (s.placeAtCursor bs).err = none := rfl
@[simp] theorem State.placeAtCursor_out (s : State) (bs : List Byte) : (s.placeAtCursor bs).out = s.out := rfl

/-- What a read of the stream gives depends on the stream alone. -/
theorem State.readByte_congr {s t : State} (hm : t.mem = s.mem) (hl : t.len = s.len) (i : Nat) :
    t.readByte i = s.readByte i := by
  simp only [State.readByte, hm, hl]

/-- What `MemRead` gives depends on the stream alone. -/
theorem State.memRead_congr {s t : State} (hm : t.mem = s.mem) (hl : t.len = s.len) (a n : Nat) :
    t.memRead a n = s.memRead a n := by
  simp only [State.memRead, hm, hl]

end Sys2Proof.Machine
end

