-- ==== Sys2Proof/Laws/Memory.lean ====
section
/-! SUPPORT. The laws of the sparse list of bytes: a read after a write, and every operation keeps the canonical form. -/

namespace Sys2Proof.Machine

@[simp] theorem Memory.wfFrom_nil (low : Nat) : Memory.wfFrom low [] = true := rfl

theorem Memory.wfFrom_cons {low a : Nat} {b : Byte} {m : Memory} :
    Memory.wfFrom low ((a, b) :: m) = true ↔ low ≤ a ∧ b ≠ Config.unlistedByte ∧ Memory.wfFrom (a + 1) m = true := by
  simp [Memory.wfFrom, and_assoc]

theorem Memory.wfFrom_mono {low low' : Nat} (hl : low' ≤ low) {m : Memory} (h : Memory.wfFrom low m = true) :
    Memory.wfFrom low' m = true := by
  cases m with
  | nil => rfl
  | cons c m =>
    obtain ⟨a, b⟩ := c
    rw [Memory.wfFrom_cons] at h ⊢
    exact ⟨le_trans hl h.1, h.2⟩

/-- Below the first listed address every address is unlisted. -/
theorem Memory.lookup_below {m : Memory} {low x : Nat} (h : Memory.wfFrom low m = true) (hx : x < low) :
    Memory.lookup m x = Config.unlistedByte := by
  induction m generalizing low with
  | nil => rfl
  | cons c m ih =>
    obtain ⟨a, b⟩ := c
    rw [Memory.wfFrom_cons] at h
    rw [Memory.lookup, if_neg (by omega)]
    exact ih h.2.2 (by omega)

theorem Memory.write_wfFrom {m : Memory} {low x : Nat} (v : Byte) (h : Memory.wfFrom low m = true) (hx : low ≤ x) :
    Memory.wfFrom low (Memory.write m x v) = true := by
  induction m generalizing low with
  | nil =>
    by_cases hv : v = Config.unlistedByte
    · simp [Memory.write, hv]
    · rw [Memory.write, if_neg hv, Memory.wfFrom_cons]
      exact ⟨hx, hv, rfl⟩
  | cons c m ih =>
    obtain ⟨a, b⟩ := c
    have h' := h
    rw [Memory.wfFrom_cons] at h'
    obtain ⟨ha, hb, hm⟩ := h'
    rw [Memory.write]
    by_cases hv : v = Config.unlistedByte
    · split_ifs with h1 h2
      · exact h
      · exact Memory.wfFrom_mono (by omega) hm
      · exact Memory.wfFrom_cons.2 ⟨ha, hb, ih hm (by omega)⟩
    · split_ifs with h1 h2
      · exact Memory.wfFrom_cons.2 ⟨hx, hv, Memory.wfFrom_cons.2 ⟨by omega, hb, hm⟩⟩
      · exact Memory.wfFrom_cons.2 ⟨hx, hv, h2 ▸ hm⟩
      · exact Memory.wfFrom_cons.2 ⟨ha, hb, ih hm (by omega)⟩

/-- A write keeps the canonical form. -/
theorem Memory.write_wf {m : Memory} (h : Memory.wf m = true) (x : Nat) (v : Byte) :
    Memory.wf (Memory.write m x v) = true :=
  Memory.write_wfFrom v h (Nat.zero_le x)

/-- Writing bytes keeps the canonical form. -/
theorem Memory.writeBytes_wf {m : Memory} (h : Memory.wf m = true) (x : Nat) (bs : List Byte) :
    Memory.wf (Memory.writeBytes m x bs) = true := by
  induction bs generalizing m x with
  | nil => exact h
  | cons b bs ih => exact ih (Memory.write_wf h x b) (x + 1)

theorem Memory.lookup_write_from {m : Memory} {low : Nat} (h : Memory.wfFrom low m = true) (x y : Nat) (v : Byte) :
    Memory.lookup (Memory.write m x v) y = if y = x then v else Memory.lookup m y := by
  induction m generalizing low with
  | nil =>
    rw [Memory.write]
    split_ifs with hv hy hy <;> simp_all [Memory.lookup]
  | cons c m ih =>
    obtain ⟨a, b⟩ := c
    rw [Memory.wfFrom_cons] at h
    obtain ⟨-, hb, hm⟩ := h
    have below : ∀ z, z < a + 1 → Memory.lookup m z = Config.unlistedByte := fun z hz => Memory.lookup_below hm hz
    rw [Memory.write]
    rcases Nat.lt_trichotomy x a with hx | rfl | hx
    · rw [if_pos hx]
      by_cases hv : v = Config.unlistedByte
      · rw [if_pos hv]
        rcases eq_or_ne y x with rfl | hy
        · rw [if_pos rfl, Memory.lookup, if_neg (by omega), below y (by omega), hv]
        · rw [if_neg hy]
      · rw [if_neg hv, Memory.lookup]
    · rw [if_neg (lt_irrefl x), if_pos rfl]
      by_cases hv : v = Config.unlistedByte
      · rw [if_pos hv]
        rcases eq_or_ne y x with rfl | hy
        · rw [if_pos rfl, below y (by omega), hv]
        · simp [Memory.lookup, hy]
      · rw [if_neg hv]
        simp only [Memory.lookup]
        split_ifs <;> rfl
    · rw [if_neg (by omega), if_neg (by omega)]
      simp only [Memory.lookup, ih hm]
      rcases eq_or_ne y a with rfl | hy
      · simp [show y ≠ x by omega]
      · simp [hy]

/-- A read after a write: the byte written at its address, the old byte elsewhere. -/
theorem Memory.lookup_write {m : Memory} (h : Memory.wf m = true) (x y : Nat) (v : Byte) :
    Memory.lookup (Memory.write m x v) y = if y = x then v else Memory.lookup m y :=
  Memory.lookup_write_from h x y v

/-- A read after writing bytes. -/
theorem Memory.lookup_writeBytes {m : Memory} (h : Memory.wf m = true) (x y : Nat) (bs : List Byte) :
    Memory.lookup (Memory.writeBytes m x bs) y =
      if x ≤ y ∧ y < x + bs.length then bs.getD (y - x) Config.unlistedByte else Memory.lookup m y := by
  induction bs generalizing m x with
  | nil => rw [if_neg (by simp only [List.length_nil]; omega)]; rfl
  | cons b bs ih =>
    rw [Memory.writeBytes, ih (Memory.write_wf h x b), Memory.lookup_write h]
    simp only [List.length_cons]
    rcases Nat.lt_trichotomy y x with hy | hy | hy
    · rw [if_neg (by omega), if_neg (by omega), if_neg (by omega)]
    · subst hy
      rw [if_neg (by omega), if_pos rfl, if_pos (by omega)]
      simp
    · obtain ⟨k, rfl⟩ : ∃ k, y = x + 1 + k := ⟨y - (x + 1), by omega⟩
      by_cases hk : k < bs.length
      · rw [if_pos (by omega), if_pos (by omega), show x + 1 + k - (x + 1) = k by omega,
          show x + 1 + k - x = k + 1 by omega]
        simp
      · rw [if_neg (by omega), if_neg (by omega), if_neg (by omega)]

/-- A write lists no address but the one written and those listed before. -/
theorem Memory.write_inside {m : Memory} {n x : Nat} (v : Byte) (h : ∀ c ∈ m, c.1 < n) (hx : x < n) :
    ∀ c ∈ Memory.write m x v, c.1 < n := by
  induction m with
  | nil =>
    rw [Memory.write]
    split_ifs <;> simp [hx]
  | cons c m ih =>
    obtain ⟨a, b⟩ := c
    have ha : a < n := h (a, b) (by simp)
    have hm : ∀ c ∈ m, c.1 < n := fun c hc => h c (by simp [hc])
    rw [Memory.write]
    intro c hc
    split_ifs at hc
    · exact h c hc
    · rcases List.mem_cons.1 hc with rfl | hc
      · exact hx
      · exact h c hc
    · exact hm c hc
    · rcases List.mem_cons.1 hc with rfl | hc
      · exact hx
      · exact hm c hc
    · rcases List.mem_cons.1 hc with rfl | hc
      · exact ha
      · exact ih hm c hc

/-- Writing bytes lists no address beyond them. -/
theorem Memory.writeBytes_inside {m : Memory} {n x : Nat} (bs : List Byte) (h : ∀ c ∈ m, c.1 < n)
    (hx : x + bs.length ≤ n) : ∀ c ∈ Memory.writeBytes m x bs, c.1 < n := by
  induction bs generalizing m x with
  | nil => exact h
  | cons b bs ih =>
    simp only [List.length_cons] at hx
    exact ih (Memory.write_inside b h (by omega)) (by omega)

/-- The stream after reset is in canonical form. -/
theorem State.reset_mem_wf : Memory.wf State.reset.mem = true := rfl

/-- Loading a stream gives canonical form. -/
theorem State.loadStream_wf (s : State) (bs : List Byte) : Memory.wf (s.loadStream bs).mem = true :=
  Memory.writeBytes_wf rfl 0 bs

/-- Placing an instruction at the cursor keeps canonical form. -/
theorem State.placeAtCursor_wf {s : State} (h : Memory.wf s.mem = true) (bs : List Byte) :
    Memory.wf (s.placeAtCursor bs).mem = true :=
  Memory.writeBytes_wf h s.pos bs

end Sys2Proof.Machine
end

