-- ==== Sys2Proof/Laws/Ops.lean ====
section
/-! SUPPORT. What each shared operation can do, said once: reading the stream, raising an error, taking the groups of bytes of a
format, delivering an instruction. -/

namespace Sys2Proof.Machine

theorem State.readByte_some_iff {s : State} {i : Nat} {b : Byte} :
    s.readByte i = some b ↔ i < s.len ∧ Memory.lookup s.mem i = b := by
  unfold State.readByte
  split_ifs with h <;> simp [h]

theorem State.readByte_none_iff {s : State} {i : Nat} : s.readByte i = none ↔ s.len ≤ i := by
  unfold State.readByte
  split_ifs with h
  · simp; omega
  · simp; omega

/-- Where byte 1 exists, `raise` takes the error, and its record holds that byte. -/
theorem State.raise_of_lt {s : State} (h : s.pos < s.len) (kind : ErrorKind) (stage : Stage) :
    s.raise kind stage = .next (s.setFailed ⟨kind, s.pos, Memory.lookup s.mem s.pos, stage⟩) := by
  simp [State.raise, State.readByte, h]

theorem State.raise_of_read {s : State} {b : Byte} (h : s.readByte s.pos = some b) (kind : ErrorKind) (stage : Stage) :
    s.raise kind stage = .next (s.setFailed ⟨kind, s.pos, b, stage⟩) := by
  simp [State.raise, h]

/-- Everything `raise` can do when it gives a next state. -/
theorem State.raise_next {s t : State} {kind : ErrorKind} {stage : Stage} (h : s.raise kind stage = .next t) :
    s.pos < s.len ∧ t = s.setFailed ⟨kind, s.pos, Memory.lookup s.mem s.pos, stage⟩ := by
  by_cases hp : s.pos < s.len
  · rw [State.raise_of_lt hp] at h
    injection h with h
    exact ⟨hp, h.symm⟩
  · simp [State.raise, State.readByte, hp] at h

/-- How many bytes the groups hold. -/
def fieldBytes : List (Stage × Nat) → Nat
  | [] => 0
  | (_, n) :: rest => n + fieldBytes rest

@[simp] theorem fieldBytes_append (f g : List (Stage × Nat)) : fieldBytes (f ++ g) = fieldBytes f + fieldBytes g := by
  induction f with
  | nil => simp [fieldBytes]
  | cons x f ih => simp only [List.cons_append, fieldBytes, ih]; omega

theorem takeFields_ok {len p : Nat} {fields : List (Stage × Nat)} (h : p + fieldBytes fields ≤ len) :
    takeFields len p fields = .ok (p + fieldBytes fields) := by
  induction fields generalizing p with
  | nil => rfl
  | cons x fields ih =>
    obtain ⟨g, n⟩ := x
    simp only [fieldBytes] at h ⊢
    rw [takeFields, if_neg (by omega), ih (by omega)]
    congr 1; omega

theorem takeFields_error {len p : Nat} {fields : List (Stage × Nat)} (hp : p ≤ len) (h : len < p + fieldBytes fields) :
    ∃ g n, (g, n) ∈ fields ∧ takeFields len p fields = .error g := by
  induction fields generalizing p with
  | nil => simp [fieldBytes] at h; omega
  | cons x fields ih =>
    obtain ⟨g, n⟩ := x
    simp only [fieldBytes] at h
    by_cases hn : p + n > len
    · exact ⟨g, n, by simp, by rw [takeFields, if_pos hn]⟩
    · obtain ⟨g', n', hm, he⟩ := ih (p := p + n) (by omega) (by omega)
      exact ⟨g', n', by simp [hm], by rw [takeFields, if_neg hn, he]⟩

/-- When every byte is there, the instruction is emitted. -/
theorem State.deliver_whole {s : State} {fields : List (Stage × Nat)} (instr : Instruction)
    (h : s.pos + 1 + fieldBytes fields ≤ s.len) :
    s.deliver fields instr = .next (s.emit (1 + fieldBytes fields) instr) := by
  rw [State.deliver, takeFields_ok h]
  simp only
  congr 2; omega

/-- When a byte is missing, TruncatedStream is taken. -/
theorem State.deliver_cut {s : State} {fields : List (Stage × Nat)} (instr : Instruction) (hp : s.pos < s.len)
    (h : s.len < s.pos + 1 + fieldBytes fields) :
    ∃ g n, (g, n) ∈ fields ∧ takeFields s.len (s.pos + 1) fields = .error g ∧
      s.deliver fields instr = .next (s.setFailed ⟨.truncatedStream, s.pos, Memory.lookup s.mem s.pos, g⟩) := by
  obtain ⟨g, n, hm, he⟩ := takeFields_error (show s.pos + 1 ≤ s.len by omega) h
  refine ⟨g, n, hm, he, ?_⟩
  rw [State.deliver, he]
  exact State.raise_of_lt hp _ _

/-- Everything `deliver` can do when it gives a next state. -/
theorem State.deliver_next {s t : State} {fields : List (Stage × Nat)} {instr : Instruction} (hf : fields ≠ [])
    (hpos : ∀ g n, (g, n) ∈ fields → 0 < n) (h : s.deliver fields instr = .next t) :
    s.pos < s.len ∧
    ((s.pos + 1 + fieldBytes fields ≤ s.len ∧ t = s.emit (1 + fieldBytes fields) instr) ∨
     (s.len < s.pos + 1 + fieldBytes fields ∧ ∃ g n, (g, n) ∈ fields ∧
       t = s.setFailed ⟨.truncatedStream, s.pos, Memory.lookup s.mem s.pos, g⟩)) := by
  by_cases hw : s.pos + 1 + fieldBytes fields ≤ s.len
  · rw [State.deliver_whole instr hw] at h
    injection h with h
    exact ⟨by omega, .inl ⟨hw, h.symm⟩⟩
  · by_cases hp : s.pos < s.len
    · obtain ⟨g, n, hm, -, he⟩ := State.deliver_cut (fields := fields) instr hp (by omega)
      rw [he] at h
      injection h with h
      exact ⟨hp, .inr ⟨by omega, g, n, hm, h.symm⟩⟩
    · exfalso
      obtain ⟨⟨g, n⟩, rest, rfl⟩ := List.exists_cons_of_ne_nil hf
      have hn := hpos g n (by simp)
      rw [State.deliver, takeFields, if_pos (by omega)] at h
      exact hp (State.raise_next h).1

/-! ## The bytes ahead of the cursor -/

/-- The bytes from an index on are the reads one after another, as long as there is one. -/
theorem State.bytesFrom_getElem? (s : State) (p n k : Nat) :
    (s.bytesFrom p n)[k]? = if k < n then s.readByte (p + k) else none := by
  induction n generalizing p k with
  | zero => simp [State.bytesFrom]
  | succ n ih =>
    rw [State.bytesFrom]
    by_cases hp : p < s.len
    · rw [if_pos hp]
      cases k with
      | zero => simp [State.readByte, hp]
      | succ k =>
        rw [List.getElem?_cons_succ, ih, show p + 1 + k = p + (k + 1) by omega]
        simp only [Nat.add_lt_add_iff_right]
    · rw [if_neg hp, List.getElem?_nil, State.readByte_none_iff.2 (by omega)]
      simp

theorem State.bytesFrom_length (s : State) (p n : Nat) : (s.bytesFrom p n).length = min n (s.len - p) := by
  induction n generalizing p with
  | zero => simp [State.bytesFrom]
  | succ n ih =>
    rw [State.bytesFrom]
    split_ifs with hp
    · rw [List.length_cons, ih]; omega
    · rw [List.length_nil]; omega

/-- The window is the reads from the cursor on. -/
theorem State.window_getElem? (s : State) (k : Nat) :
    s.window[k]? = if k < Config.maxLength then s.readByte (s.pos + k) else none :=
  s.bytesFrom_getElem? s.pos Config.maxLength k

/-- A list whose bytes stand at the cursor is the head of the window. -/
theorem State.window_of_holds {s : State} {bs : List Byte} (hn : bs.length ≤ Config.maxLength)
    (h : ∀ k, k < bs.length → s.readByte (s.pos + k) = bs[k]?) : ∃ rest, s.window = bs ++ rest := by
  refine ⟨s.window.drop bs.length, List.ext_getElem? fun k => ?_⟩
  by_cases hk : k < bs.length
  · rw [List.getElem?_append_left hk, State.window_getElem?, if_pos (by omega), h k hk]
  · rw [List.getElem?_append_right (by omega), List.getElem?_drop]
    congr 1; omega

/-- A list whose first bytes stand at the cursor, up to the end of the stream inside it, starts with the window. -/
theorem State.window_of_cut {s : State} {bs : List Byte} (hn : bs.length ≤ Config.maxLength)
    (hc : s.len < s.pos + bs.length) (h : ∀ k, s.pos + k < s.len → s.readByte (s.pos + k) = bs[k]?) :
    s.window = bs.take (s.len - s.pos) := by
  refine List.ext_getElem? fun k => ?_
  rw [State.window_getElem?, List.getElem?_take]
  by_cases hk : s.pos + k < s.len
  · rw [if_pos (by omega), if_pos (by omega), h k hk]
  · rw [if_neg (c := k < s.len - s.pos) (by omega), State.readByte_none_iff.2 (by omega)]
    simp

/-! ## A stream in the state in which a run begins -/

/-- A booted state holds its stream. -/
theorem State.boot_lookup (bs : List Byte) (i : Nat) (h : i < bs.length) :
    Memory.lookup (State.boot bs).mem i = bs[i] := by
  rw [State.boot_mem, Memory.lookup_writeBytes rfl, if_pos (by omega)]
  simp [h]

end Sys2Proof.Machine
end

