-- ==== Sys2Proof/Laws/Exec.lean ====
section
/-! SUPPORT. Every meaning but the last row's is one `deliver`: the groups of bytes the instruction takes and the value it
yields, as functions of the instruction. -/

namespace Sys2Proof.Machine

/-- The groups of bytes an instruction takes after byte 1. -/
def instrFields : Instr → List (Stage × Nat)
  | .movRm8R8 _ rm => rmRegFields rm
  | .movRm16R16 _ rm => rmRegFields rm
  | .movR8Rm8 _ rm => rmRegFields rm
  | .movR16Rm16 _ rm => rmRegFields rm
  | .movR8Imm8 _ _ => [(.immediate, 1)]
  | .movR16Imm16 _ _ => [(.immediate, 2)]
  | .movRm8Imm8 rm _ => immRmFields rm 1
  | .movRm16Imm16 rm _ => immRmFields rm 2
  | .movAlAddr _ => [(.address, 2)]
  | .movAxAddr _ => [(.address, 2)]
  | .movAddrAl _ => [(.address, 2)]
  | .movAddrAx _ => [(.address, 2)]
  | .unsupportedFirstByte _ => []

/-- The value an instruction yields; none for a first byte that is no instruction. -/
def instrValue : Instr → Option Instruction
  | .movRm8R8 reg rm => some (mov (rmOperand .byte rm) (regOperand .byte reg))
  | .movRm16R16 reg rm => some (mov (rmOperand .word rm) (regOperand .word reg))
  | .movR8Rm8 reg rm => some (mov (regOperand .byte reg) (rmOperand .byte rm))
  | .movR16Rm16 reg rm => some (mov (regOperand .word reg) (rmOperand .word rm))
  | .movR8Imm8 reg imm => some (mov (regOperand .byte reg) (byteImmediate imm))
  | .movR16Imm16 reg imm => some (mov (regOperand .word reg) (wordImmediate imm))
  | .movRm8Imm8 rm imm => some (mov (rmOperand .byte rm) (byteImmediate imm))
  | .movRm16Imm16 rm imm => some (mov (rmOperand .word rm) (wordImmediate imm))
  | .movAlAddr addr => some (mov (accumulator .byte) (directOperand addr))
  | .movAxAddr addr => some (mov (accumulator .word) (directOperand addr))
  | .movAddrAl addr => some (mov (directOperand addr) (accumulator .byte))
  | .movAddrAx addr => some (mov (directOperand addr) (accumulator .word))
  | .unsupportedFirstByte _ => none

/-- The meaning of an instruction that yields a value. -/
theorem exec_eq_deliver {i : Instr} {v : Instruction} (h : instrValue i = some v) (s : State) :
    exec i s = s.deliver (instrFields i) v := by
  cases i <;> simp only [instrValue, Option.some.injEq, reduceCtorEq] at h <;> subst h <;> rfl

/-- The meaning of the last row. -/
theorem exec_eq_raise {i : Instr} (h : instrValue i = none) (s : State) :
    exec i s = s.raise .unsupportedOpcode .classify := by
  cases i <;> simp only [instrValue, reduceCtorEq] at h
  rfl

theorem rmFields_pos {f : RmField} {g : Stage} {n : Nat} (h : (g, n) ∈ rmFields f) : 0 < n := by
  cases f <;> simp [rmFields] at h <;> omega

theorem instrFields_pos {i : Instr} {g : Stage} {n : Nat} (h : (g, n) ∈ instrFields i) : 0 < n := by
  cases i <;>
    simp only [instrFields, rmRegFields, immRmFields, List.mem_cons, List.mem_append, Prod.mk.injEq, List.not_mem_nil,
      or_false] at h
  all_goals first
    | exact h.elim
    | omega
    | (rcases h with h | h | h <;> first | omega | exact rmFields_pos h)
    | (rcases h with h | h <;> first | omega | exact rmFields_pos h)

theorem instrFields_ne_nil {i : Instr} {v : Instruction} (h : instrValue i = some v) : instrFields i ≠ [] := by
  cases i <;> simp [instrValue, instrFields, rmRegFields, immRmFields] at h ⊢

theorem rmFields_bytes (f : RmField) : fieldBytes (rmFields f) = f.tail.length := by
  cases f <;> rfl

/-- Everything a meaning can do when it gives a next state: emit the value and move past the instruction; take TruncatedStream
where a byte of it is missing; or, for the last row, take UnsupportedOpcode. -/
theorem exec_next {i : Instr} {s t : State} (h : exec i s = .next t) :
    s.pos < s.len ∧
    ((∃ v, instrValue i = some v ∧ s.pos + 1 + fieldBytes (instrFields i) ≤ s.len ∧
        t = s.emit (1 + fieldBytes (instrFields i)) v) ∨
     (∃ v g n, instrValue i = some v ∧ s.len < s.pos + 1 + fieldBytes (instrFields i) ∧ (g, n) ∈ instrFields i ∧
        t = s.setFailed ⟨.truncatedStream, s.pos, Memory.lookup s.mem s.pos, g⟩) ∨
     (instrValue i = none ∧ t = s.setFailed ⟨.unsupportedOpcode, s.pos, Memory.lookup s.mem s.pos, .classify⟩)) := by
  cases hv : instrValue i with
  | none =>
    rw [exec_eq_raise hv] at h
    obtain ⟨hp, rfl⟩ := State.raise_next h
    exact ⟨hp, .inr (.inr ⟨rfl, rfl⟩)⟩
  | some v =>
    rw [exec_eq_deliver hv] at h
    obtain ⟨hp, ⟨hw, rfl⟩ | ⟨hc, g, n, hm, rfl⟩⟩ :=
      State.deliver_next (instrFields_ne_nil hv) (fun g n => instrFields_pos) h
    · exact ⟨hp, .inl ⟨v, rfl, hw, rfl⟩⟩
    · exact ⟨hp, .inr (.inl ⟨v, g, n, rfl, hc, hm, rfl⟩)⟩

end Sys2Proof.Machine
end

