-- ==== Sys2Proof/Laws/PerInstr.lean ====
section
/-! SUPPORT. The statements made of every instruction, one lemma for each constructor. FieldBytes: the bytes of the encoding are byte 1
and the groups of bytes that the meaning takes, so that an instruction's encoded length and the count its meaning advances the cursor
by are one number (`47_driver_and_output.md` R174). -/

namespace Sys2Proof.Laws.FieldBytes

open Sys2Proof.Machine

/-- The encoded length is byte 1 and the groups the meaning takes. -/
def Statement (i : Instr) : Prop := i.length = 1 + fieldBytes (instrFields i)

theorem movRm8R8 (reg : BitVec 3) (rm : RmField) : Statement (.movRm8R8 reg rm) := by
  cases rm <;> rfl

theorem movRm16R16 (reg : BitVec 3) (rm : RmField) : Statement (.movRm16R16 reg rm) := by
  cases rm <;> rfl

theorem movR8Rm8 (reg : BitVec 3) (rm : RmField) : Statement (.movR8Rm8 reg rm) := by
  cases rm <;> rfl

theorem movR16Rm16 (reg : BitVec 3) (rm : RmField) : Statement (.movR16Rm16 reg rm) := by
  cases rm <;> rfl

theorem movR8Imm8 (reg : BitVec 3) (imm : Byte) : Statement (.movR8Imm8 reg imm) := rfl

theorem movR16Imm16 (reg : BitVec 3) (imm : Word16) : Statement (.movR16Imm16 reg imm) := rfl

theorem movRm8Imm8 (rm : RmField) (imm : Byte) : Statement (.movRm8Imm8 rm imm) := by
  cases rm <;> rfl

theorem movRm16Imm16 (rm : RmField) (imm : Word16) : Statement (.movRm16Imm16 rm imm) := by
  cases rm <;> rfl

theorem movAlAddr (addr : Word16) : Statement (.movAlAddr addr) := rfl

theorem movAxAddr (addr : Word16) : Statement (.movAxAddr addr) := rfl

theorem movAddrAl (addr : Word16) : Statement (.movAddrAl addr) := rfl

theorem movAddrAx (addr : Word16) : Statement (.movAddrAx addr) := rfl

theorem unsupportedFirstByte (byte : Byte) : Statement (.unsupportedFirstByte byte) := rfl

end Sys2Proof.Laws.FieldBytes
end

