-- ==== Sys2Proof/Laws/Step.lean ====
section
/-! SUPPORT. The cases of a step, said once. -/

namespace Sys2Proof.Machine

theorem step_of_not_reading {s : State} (h : s.st ≠ .reading) : step s = .next s := by
  unfold step State.fetch
  cases hs : s.st <;> first | exact absurd hs h | rfl

theorem step_at_end {s : State} (hs : s.st = .reading) (hp : s.pos = s.len) : step s = .next s.setDone := by
  simp [step, State.fetch, hs, hp]

theorem step_of_decode {s : State} {i : Instr} {rest : List Byte} (hs : s.st = .reading) (hp : s.pos ≠ s.len)
    (hd : decode s.window = .ok (i, rest)) : step s = exec i s := by
  simp [step, State.fetch, hs, hp, hd]

theorem step_of_truncated {s : State} {g : Stage} (hs : s.st = .reading) (hp : s.pos ≠ s.len)
    (hd : decode s.window = .error (.truncatedStream g)) : step s = s.raise .truncatedStream g := by
  simp [step, State.fetch, hs, hp, hd]

theorem step_of_invalid {s : State} {g : Stage} (hs : s.st = .reading) (hp : s.pos ≠ s.len)
    (hd : decode s.window = .error (.invalidFieldCombination g)) : step s = s.raise .invalidFieldCombination g := by
  simp [step, State.fetch, hs, hp, hd]

theorem step_of_noByte {s : State} (hs : s.st = .reading) (hp : s.pos ≠ s.len)
    (hd : decode s.window = .error .noByte) : step s = .fault .readOutsideStream := by
  simp [step, State.fetch, hs, hp, hd]

/-- Everything a step can do when it gives a next state: stay, end the run, run the decoded instruction, or take the error
the decoder names. -/
theorem step_next {s t : State} (h : step s = .next t) :
    (s.st ≠ .reading ∧ t = s) ∨
    (s.st = .reading ∧ s.pos = s.len ∧ t = s.setDone) ∨
    (s.st = .reading ∧ s.pos ≠ s.len ∧ ∃ i rest, decode s.window = .ok (i, rest) ∧ exec i s = .next t) ∨
    (s.st = .reading ∧ s.pos ≠ s.len ∧ ∃ g, decode s.window = .error (.truncatedStream g) ∧
      s.raise .truncatedStream g = .next t) ∨
    (s.st = .reading ∧ s.pos ≠ s.len ∧ ∃ g, decode s.window = .error (.invalidFieldCombination g) ∧
      s.raise .invalidFieldCombination g = .next t) := by
  by_cases hs : s.st = .reading
  · by_cases hp : s.pos = s.len
    · rw [step_at_end hs hp] at h
      injection h with h
      exact .inr (.inl ⟨hs, hp, h.symm⟩)
    · refine .inr (.inr ?_)
      rcases hd : decode s.window with (_ | g | g) | ⟨i, rest⟩
      · rw [step_of_noByte hs hp hd] at h
        cases h
      · exact .inr (.inl ⟨hs, hp, g, rfl, step_of_truncated hs hp hd ▸ h⟩)
      · exact .inr (.inr ⟨hs, hp, g, rfl, step_of_invalid hs hp hd ▸ h⟩)
      · exact .inl ⟨hs, hp, i, rest, rfl, step_of_decode hs hp hd ▸ h⟩
  · rw [step_of_not_reading hs] at h
    injection h with h
    exact .inl ⟨hs, h.symm⟩

end Sys2Proof.Machine
end

