-- ==== Sys2Proof/Laws/Run.lean ====
section
/-! SUPPORT. Runs of the machine, one step at a time. The names of the host's interface are unfolded here and nowhere else. -/

namespace Sys2Proof.Machine

theorem run_zero (s : State) : Host.Core.run Sys2Proof.core 0 s = .next s := rfl

theorem run_of_next {s t : State} (n : Nat) (h : step s = .next t) :
    Host.Core.run Sys2Proof.core (n + 1) s = Host.Core.run Sys2Proof.core n t := by
  have e := Host.Core.run.eq_2 Sys2Proof.core s n
  rw [show Sys2Proof.core.step s = .next t from h] at e
  exact e

/-- A halted state stays as it is for any number of steps. -/
theorem run_of_not_reading {s : State} (n : Nat) (h : s.st ≠ .reading) : Host.Core.run Sys2Proof.core n s = .next s := by
  induction n with
  | zero => exact run_zero s
  | succ n ih => exact (run_of_next n (step_of_not_reading h)).trans ih

end Sys2Proof.Machine
end

