-- ==== Sys2Proof/Tests/Slice0.lean ====
section
/-! SUPPORT. Tests of the model. Expected results come from the spec: the encodings of `30_encoding.md` written out in bits, and the worked
examples and vectors S1 to S6 and T1 to T108 of `95_test_vectors.md`, named beside each. After them, for each obligation with hypotheses, a
concrete witness that meets them. -/

namespace Sys2Proof.Tests

open Sys2Proof Sys2Proof.Machine Sys2Proof.Claims

/-! ## WellFormed -/

/-- `mod = 0` with `rm = 6` is refused under every constructor that holds an `rm` form. -/
theorem test_wf_refuses_indirect_six :
    (Instr.movRm8R8 0 (.indirect 6)).wf = false ∧ (Instr.movRm16R16 0 (.indirect 6)).wf = false ∧
    (Instr.movR8Rm8 0 (.indirect 6)).wf = false ∧ (Instr.movR16Rm16 0 (.indirect 6)).wf = false ∧
    (Instr.movRm8Imm8 (.indirect 6) 0).wf = false ∧ (Instr.movRm16Imm16 (.indirect 6) 0).wf = false := by decide

/-- The last row of the table does not hold a first byte that a pattern matches. -/
theorem test_wf_refuses_accepted_first_bytes :
    ∀ b ∈ ([0x88, 0x8B, 0xA0, 0xA3, 0xB0, 0xBF, 0xC6, 0xC7] : List Byte), (Instr.unsupportedFirstByte b).wf = false := by decide

/-- The last row holds the bytes at the ends of the ranges of `30_encoding.md` R72. -/
theorem test_wf_accepts_range_ends :
    ∀ b ∈ ([0x00, 0x87, 0x8C, 0x9F, 0xA4, 0xAF, 0xC0, 0xC5, 0xC8, 0xFF] : List Byte),
      (Instr.unsupportedFirstByte b).wf = true := by decide

/-! ## BitField and the tables -/

/-- T1 to T8. -/
theorem test_extract_vectors :
    extract 0x89 1 6 = 34 ∧ extract 0x89 7 1 = 0 ∧ extract 0x89 8 1 = 1 ∧
    extract 0xD9 1 2 = 3 ∧ extract 0xD9 3 3 = 3 ∧ extract 0xD9 6 3 = 1 ∧
    extract 0xB1 1 4 = 11 ∧ extract 0xB1 5 1 = 0 ∧ extract 0xB1 6 3 = 1 ∧
    extract 0xC7 1 7 = 99 ∧ extract 0xA3 1 7 = 81 ∧
    extract 0xFF 1 8 = 255 ∧ extract 0x80 1 1 = 1 ∧ extract 0x01 8 1 = 1 ∧ extract 0x7F 1 1 = 0 := by decide

/-- T13 to T15. -/
theorem test_effective_address_vectors :
    isDirectAddress 0 6 = true ∧ isDirectAddress 1 6 = false ∧ isDirectAddress 0 7 = false ∧
    eaLookup 0 6 = .directAddress ∧ eaLookup 1 6 = .components [.bp] := by decide

/-! ## Decoding, the words written out from the encodings of `30_encoding.md` R60 to R68 -/

/-- R61 and R66: `100010 d w`, `mod reg rm`. Vectors S2, S1, S4, T47. -/
theorem test_decode_rm_reg_registers :
    decode [0b100010_0_0, 0b11_100_000] = .ok (.movRm8R8 4 (.register 0), []) ∧
    decode [0b100010_0_1, 0b11_011_001] = .ok (.movRm16R16 3 (.register 1), []) ∧
    decode [0b100010_1_0, 0b00_000_000] = .ok (.movR8Rm8 0 (.indirect 0), []) ∧
    decode [0b100010_1_1, 0b11_001_011] = .ok (.movR16Rm16 1 (.register 3), []) := ⟨rfl, rfl, rfl, rfl⟩

/-- R67: the displacement and address bytes. Vectors S5, T45, T46, T49. -/
theorem test_decode_rm_reg_memory :
    decode [0b100010_0_1, 0b01_001_110, 0x0A] = .ok (.movRm16R16 1 (.disp8 6 10), []) ∧
    decode [0b100010_1_0, 0b01_101_110, 0x80] = .ok (.movR8Rm8 5 (.disp8 6 0x80), []) ∧
    decode [0b100010_1_0, 0b00_010_110, 0x02, 0x01] = .ok (.movR8Rm8 2 (.direct 0x0102), []) ∧
    decode [0b100010_1_1, 0b10_010_011, 0xFE, 0xFF] = .ok (.movR16Rm16 2 (.disp16 3 0xFFFE), []) := ⟨rfl, rfl, rfl, rfl⟩

/-- R60: `1011 w reg`. Vectors S3a, T65. -/
theorem test_decode_imm_reg :
    decode [0b1011_0_001, 0b00001100] = .ok (.movR8Imm8 1 12, []) ∧
    decode [0b1011_1_011, 0b11110100, 0b11111111] = .ok (.movR16Imm16 3 0xFFF4, []) := ⟨rfl, rfl⟩

/-- R62: `1100011 w`, `mod 000 rm`. Vectors T74, T80: displacement before immediate. -/
theorem test_decode_imm_rm :
    decode [0b1100011_0, 0b00_000_110, 0x34, 0x12, 0x80] = .ok (.movRm8Imm8 (.direct 0x1234) 0x80, []) ∧
    decode [0b1100011_1, 0b10_000_101, 0x85, 0xF0, 0x5B, 0x01] = .ok (.movRm16Imm16 (.disp16 5 0xF085) 0x015B, []) := ⟨rfl, rfl⟩

/-- R64 and R65: `1010000 w` and `1010001 w`. Vectors S6, T92, T94, T96. -/
theorem test_decode_accumulator :
    decode [0b1010000_0, 0b00000001, 0b00000010] = .ok (.movAlAddr 0x0201, []) ∧
    decode [0b1010000_1, 0x34, 0x12] = .ok (.movAxAddr 0x1234, []) ∧
    decode [0b1010001_0, 0x00, 0x00] = .ok (.movAddrAl 0, []) ∧
    decode [0b1010001_1, 0x10, 0x00] = .ok (.movAddrAx 0x0010, []) := ⟨rfl, rfl, rfl, rfl⟩

/-- T102, T103: an unmatched first byte, and a prefix, which is not skipped. -/
theorem test_decode_unsupported :
    decode [0x8E, 0xD8] = .ok (.unsupportedFirstByte 0x8E, [0xD8]) ∧
    decode [0x26, 0x8A, 0x07] = .ok (.unsupportedFirstByte 0x26, [0x8A, 0x07]) := ⟨rfl, rfl⟩

/-- The decoder's refusals, by name: T84 (the `reg` field before the missing byte), T85, T56. -/
theorem test_decode_refusals :
    decode [] = .error .noByte ∧
    decode [0xC6, 0x48] = .error (.invalidFieldCombination .modrm) ∧
    decode [0xC6] = .error (.truncatedStream .modrm) ∧
    decode [0x8B, 0x80, 0x01] = .error (.truncatedStream .displacement) := ⟨rfl, rfl, rfl, rfl⟩

/-- The table's numbering: byte 1 in bits 7..0 (S1, and the 6-byte T79). -/
theorem test_decode_table_word :
    decodeTableWord 16 0xD989 = some (.movRm16R16 3 (.register 1)) ∧
    decodeTableWord 48 0x000103E806C7 = some (.movRm16Imm16 (.direct 0x03E8) 1) ∧
    decodeTableWord 8 0x90 = some (.unsupportedFirstByte 0x90) := by decide

/-- The host's placement: the very next step runs the placed instruction. -/
theorem test_with_fetch_word :
    step (State.reset.withFetchWord 16 0xD989) = exec (.movRm16R16 3 (.register 1)) (State.reset.withFetchWord 16 0xD989) ∧
    step (State.reset.withFetchWord 8 0x90) = exec (.unsupportedFirstByte 0x90) (State.reset.withFetchWord 8 0x90) := ⟨rfl, rfl⟩

/-! ## One step on a stream that is exactly the bytes shown -/

/-- The first step emits a value of `n` bytes, moves the cursor past it and stays in Reading. -/
def emits (bytes : List Byte) (n : Nat) (destination source : Operand) : Bool :=
  match step (State.boot bytes) with
  | .next t => t.pos == n && t.st == .reading && t.err == none && t.out == [⟨0, n, movOf destination source⟩]
  | .fault _ => false
  | .refused _ => false

/-- The first step takes an error at offset 0 and leaves the cursor and `OUT`. -/
def raises (bytes : List Byte) (kind : ErrorKind) (byte : Byte) (stage : Stage) : Bool :=
  match step (State.boot bytes) with
  | .next t => t.pos == 0 && t.st == .failed && t.err == some ⟨kind, 0, byte, stage⟩ && t.out == []
  | .fault _ => false
  | .refused _ => false

/-- A memory operand of registers and a displacement. -/
def memOf (components : List RegisterName) (displacement : Option Int) : Operand := .memory ⟨components, displacement, none⟩

/-- A direct address. -/
def addrOf (a : Word16) : Operand := .memory ⟨[], none, some a⟩

/-- S2, T20. -/
theorem test_movRm8R8 :
    emits [0x88, 0xE0] 2 (.register .al) (.register .ah) ∧ emits [0x88, 0xC4] 2 (.register .ah) (.register .al) := by decide

/-- S1, S5. -/
theorem test_movRm16R16 :
    emits [0x89, 0xD9] 2 (.register .cx) (.register .bx) ∧
    emits [0x89, 0x4E, 0x0A] 3 (memOf [.bp] (some 10)) (.register .cx) := by decide

/-- S4, T45. -/
theorem test_movR8Rm8 :
    emits [0x8A, 0x00] 2 (.register .al) (memOf [.bx, .si] none) ∧
    emits [0x8A, 0x6E, 0x80] 3 (.register .ch) (memOf [.bp] (some (-128))) := by decide

/-- T49, T50. -/
theorem test_movR16Rm16 :
    emits [0x8B, 0x93, 0xFE, 0xFF] 4 (.register .dx) (memOf [.bp, .di] (some (-2))) ∧
    emits [0x8B, 0x06, 0x34, 0x12] 4 (.register .ax) (addrOf 0x1234) := by decide

/-- T61 (no sign extension), S3a. -/
theorem test_movR8Imm8 :
    emits [0xB4, 0xFF] 2 (.register .ah) (.immediate 255 .byte) ∧
    emits [0xB1, 0x0C] 2 (.register .cl) (.immediate 12 .byte) := by decide

/-- T68 (low byte first), T66. -/
theorem test_movR16Imm16 :
    emits [0xB8, 0x34, 0x12] 3 (.register .ax) (.immediate 4660 .word) ∧
    emits [0xBC, 0x00, 0x80] 3 (.register .sp) (.immediate 32768 .word) := by decide

/-- T73, T75. -/
theorem test_movRm8Imm8 :
    emits [0xC6, 0x46, 0xFE, 0xFF] 4 (memOf [.bp] (some (-2))) (.immediate 255 .byte) ∧
    emits [0xC6, 0x82, 0x00, 0x01, 0x07] 5 (memOf [.bp, .si] (some 256)) (.immediate 7 .byte) := by decide

/-- T77, T80. -/
theorem test_movRm16Imm16 :
    emits [0xC7, 0xC1, 0x34, 0x12] 4 (.register .cx) (.immediate 4660 .word) ∧
    emits [0xC7, 0x85, 0x85, 0xF0, 0x5B, 0x01] 6 (memOf [.di] (some (-3963))) (.immediate 347 .word) := by decide

/-- S6. -/
theorem test_movAlAddr : emits [0xA0, 0x01, 0x02] 3 (.register .al) (addrOf 0x0201) := by decide

/-- T93. -/
theorem test_movAxAddr : emits [0xA1, 0xFB, 0x09] 3 (.register .ax) (addrOf 0x09FB) := by decide

/-- T94. -/
theorem test_movAddrAl : emits [0xA2, 0x00, 0x00] 3 (addrOf 0) (.register .al) := by decide

/-- T95. -/
theorem test_movAddrAx : emits [0xA3, 0xFF, 0xFF] 3 (addrOf 0xFFFF) (.register .ax) := by decide

/-- T102, T103. -/
theorem test_unsupportedFirstByte :
    raises [0x8E, 0xD8] .unsupportedOpcode 0x8E .classify ∧
    raises [0x26, 0x8A, 0x07] .unsupportedOpcode 0x26 .classify := by decide

/-- T54 to T57. -/
theorem test_truncated_rm_reg :
    raises [0x88] .truncatedStream 0x88 .modrm ∧ raises [0x89, 0x46] .truncatedStream 0x89 .displacement ∧
    raises [0x8B, 0x80, 0x01] .truncatedStream 0x8B .displacement ∧
    raises [0x8A, 0x06, 0x01] .truncatedStream 0x8A .address := by decide

/-- T69, S3b, T97 to T100. -/
theorem test_truncated_short_forms :
    raises [0xB5] .truncatedStream 0xB5 .immediate ∧ raises [0xB9, 0x0C] .truncatedStream 0xB9 .immediate ∧
    raises [0xA0] .truncatedStream 0xA0 .address ∧ raises [0xA1, 0x34] .truncatedStream 0xA1 .address ∧
    raises [0xA2, 0x01] .truncatedStream 0xA2 .address ∧ raises [0xA3] .truncatedStream 0xA3 .address := by decide

/-- T85 to T91. -/
theorem test_truncated_imm_rm :
    raises [0xC6] .truncatedStream 0xC6 .modrm ∧ raises [0xC6, 0x40] .truncatedStream 0xC6 .displacement ∧
    raises [0xC7, 0x80, 0x01] .truncatedStream 0xC7 .displacement ∧ raises [0xC7, 0x06, 0x34] .truncatedStream 0xC7 .address ∧
    raises [0xC7, 0x07, 0x0C] .truncatedStream 0xC7 .immediate ∧
    raises [0xC7, 0x06, 0x34, 0x12, 0x01] .truncatedStream 0xC7 .immediate := by decide

/-- T82 to T84. -/
theorem test_invalid_field_combination :
    raises [0xC6, 0x0F, 0x01] .invalidFieldCombination 0xC6 .modrm ∧
    raises [0xC7, 0xD8, 0x01, 0x00] .invalidFieldCombination 0xC7 .modrm ∧
    raises [0xC6, 0x48] .invalidFieldCombination 0xC6 .modrm := by decide

/-- Program P6: the empty stream ends in Done in one step. -/
theorem test_empty_stream_is_done : step (State.boot []) = .next { State.boot [] with st := .done } := rfl

/-- A step past the first instruction keeps what was emitted (program P4, its second step). -/
theorem test_second_step_fails :
    let s : State := { State.boot [0x8B, 0x41, 0x7F, 0xB9, 0x0C] with
      pos := 3, out := [⟨0, 3, movOf (.register .ax) (memOf [.bx, .di] (some 127))⟩] }
    step s = .next { s with st := .failed, err := some ⟨.truncatedStream, 3, 0xB9, .immediate⟩ } := rfl

/-! ## The canonical text -/

/-- T105 to T107. -/
theorem test_render_memory :
    renderOperand (memOf [.bp] (some 0)) = "[BP]".toList ∧ renderOperand (memOf [.bp] none) = "[BP]".toList ∧
    renderOperand (memOf [.bx, .si] (some 1)) = "[BX + SI + 1]".toList ∧
    renderOperand (memOf [.bx, .si] (some (-32768))) = "[BX + SI - 32768]".toList ∧
    renderOperand (addrOf 0) = "[0x0000]".toList ∧ renderOperand (addrOf 0xABCD) = "[0xABCD]".toList ∧
    renderOperand (addrOf 0x00FF) = "[0x00FF]".toList := by decide

/-- T108, and the line of T80. -/
theorem test_render_line :
    renderOperand (.immediate 0 .byte) = "0".toList ∧ renderOperand (.immediate 256 .word) = "256".toList ∧
    renderOperand (.immediate 65535 .word) = "65535".toList ∧
    render (movOf (memOf [.di] (some (-3963))) (.immediate 347 .word)) = "MOV [DI - 3963], 347" := by decide

/-! ## Witnesses: the hypotheses of the obligations can be met

`Shows bytes n` lists what `readByte` gives at the first `n` indices of a stream, in the state a run on it begins in. -/

/-- What stands at the first `n` indices. -/
def Shows (bytes : List Byte) (n : Nat) : List (Option Byte) := (List.range n).map (State.boot bytes).readByte

/-- The fields of byte 2 as the rules read them: `mod`, `reg`, `rm`. -/
def fieldsOf (b2 : Byte) : Nat × Nat × Nat := (b2.toNat / 64, b2.toNat / 8 % 8, b2.toNat % 8)

/-- The start of a run is in Reading with the cursor at 0. -/
theorem witness_boot_reads (bytes : List Byte) : (State.boot bytes).st = .reading ∧ (State.boot bytes).pos = 0 := ⟨rfl, rfl⟩

/-- `ExtractReturnsTheBitSlice`: the corners of the domain. -/
theorem witness_extract_domain :
    (1 ≤ 1 ∧ 1 ≤ 1 ∧ 1 + 1 - 1 ≤ 8) ∧ (1 ≤ 1 ∧ 1 ≤ 8 ∧ 1 + 8 - 1 ≤ 8) ∧ (1 ≤ 8 ∧ 1 ≤ 1 ∧ 8 + 1 - 1 ≤ 8) := by decide

/-- `OperandDecoderForms`, `ZeroDisplacementIsKeptAndRendersAsAbsent`: codes beside 6; `RegisterTableIsABijection`: equal entries. -/
theorem witness_codes :
    (5 : BitVec 3).toNat ≠ 6 ∧ (7 : BitVec 3).toNat ≠ 6 ∧ (0 : BitVec 3) ≠ 6 ∧ (6 : BitVec 3).toNat = 6 ∧
    regLookup .word 7 = regLookup .word 7 := by decide

/-- `DecodeOfEncodeIsTheInstruction`, `InstructionLengthTable`, `StepRunsTheEncodedInstruction`: a well-formed instruction of 6 bytes,
whole at the cursor. -/
theorem witness_encoded_at_cursor :
    let i : Instr := .movRm16Imm16 (.disp16 5 0xF085) 0x015B
    i.wf = true ∧ isMov i = true ∧ (State.boot (encode i)).st = .reading ∧ i.length = 6 ∧
    HoldsAtCursor (State.boot (encode i)) (encode i) :=
  ⟨rfl, rfl, rfl, rfl, by unfold HoldsAtCursor; decide⟩

/-- `EncodeOfDecodeIsTheBytes`, `StepRunsTheDecodedInstruction`. -/
theorem witness_decoded_window :
    (State.boot [0x8A, 0x00, 0xB1]).st = .reading ∧ (State.boot [0x8A, 0x00, 0xB1]).pos < (State.boot [0x8A, 0x00, 0xB1]).len ∧
    decode (State.boot [0x8A, 0x00, 0xB1]).window = .ok (.movR8Rm8 0 (.indirect 0), [0xB1]) := ⟨rfl, by decide, rfl⟩

/-- `StepOnACutInstructionRunsIt`, `CutInstructionTakesTruncatedStream`: the last byte is missing. -/
theorem witness_cut_instruction :
    let i : Instr := .movRm16Imm16 (.direct 0x1234) 0x5601
    let s := State.boot [0xC7, 0x06, 0x34, 0x12, 0x01]
    i.wf = true ∧ isMov i = true ∧ s.st = .reading ∧ s.readByte s.pos = some 0xC7 ∧ s.pos < s.len ∧ s.len < s.pos + i.length ∧
    ∀ k, k < s.len - s.pos → s.readByte (s.pos + k) = (encode i)[k]? := by decide

/-- `WholeInstructionIsEmitted`: the bytes reach exactly to the end of the stream. -/
theorem witness_whole_instruction :
    isMov (.movAlAddr 0x0201) = true ∧
    (State.boot [0xA0, 0x01, 0x02]).pos + (Instr.movAlAddr 0x0201).length ≤ (State.boot [0xA0, 0x01, 0x02]).len := by decide

/-- `InstructionFrame`: an instruction that is emitted, and one that takes an error. -/
theorem witness_frame :
    (exec (.movAddrAl 0) (State.boot [0xA2, 0, 0]) =
      .next { State.boot [0xA2, 0, 0] with pos := 3, out := [⟨0, 3, movOf (addrOf 0) (.register .al)⟩] }) ∧
    exec (.movAddrAl 0) (State.boot [0xA2]) =
      .next { State.boot [0xA2] with st := .failed, err := some ⟨.truncatedStream, 0, 0xA2, .address⟩ } := ⟨rfl, rfl⟩

/-- `StepIsTheDriverStep`, `CleanEndEntersDone`: the cursor at the end; `HaltedStatesAbsorb`: both halted states. -/
theorem witness_ends :
    (State.boot [0x90]).pos ≤ (State.boot [0x90]).len ∧ (State.boot []).st = .reading ∧ (State.boot []).pos = (State.boot []).len ∧
    ({ State.boot [] with st := .done } : State).st = .done ∧ ({ State.boot [0x90] with st := .failed } : State).st = .failed := by
  decide

/-- The RM_REG rules: no byte 2. -/
theorem witness_rm_reg_no_byte_2 : ∀ b ∈ ([0x88, 0x89, 0x8A, 0x8B] : List Byte), Shows [b] 2 = [some b, none] := by decide

/-- The RM_REG rules, `mod = 3`: the highest codes. -/
theorem witness_rm_reg_register : ∀ b ∈ ([0x88, 0x89, 0x8A, 0x8B] : List Byte),
    Shows [b, 0xFF] 2 = [some b, some 0xFF] ∧ fieldsOf 0xFF = (3, 7, 7) := by decide

/-- The RM_REG rules, `mod = 0`: `rm` 5 and 7, either side of the direct address. -/
theorem witness_rm_reg_indirect : ∀ b ∈ ([0x88, 0x89, 0x8A, 0x8B] : List Byte),
    Shows [b, 0x05] 2 = [some b, some 0x05] ∧ fieldsOf 0x05 = (0, 0, 5) ∧
    Shows [b, 0x07] 2 = [some b, some 0x07] ∧ fieldsOf 0x07 = (0, 0, 7) := by decide

/-- The RM_REG rules, `mod = 0` with `rm = 6`: cut, and whole. -/
theorem witness_rm_reg_direct : ∀ b ∈ ([0x88, 0x89, 0x8A, 0x8B] : List Byte),
    fieldsOf 0x3E = (0, 7, 6) ∧ Shows [b, 0x3E, 1] 4 = [some b, some 0x3E, some 1, none] ∧
    Shows [b, 0x3E, 0xFF, 0xFF] 4 = [some b, some 0x3E, some 0xFF, some 0xFF] := by decide

/-- The RM_REG rules, `mod = 1`: cut, and whole. -/
theorem witness_rm_reg_disp8 : ∀ b ∈ ([0x88, 0x89, 0x8A, 0x8B] : List Byte),
    fieldsOf 0x46 = (1, 0, 6) ∧ Shows [b, 0x46] 3 = [some b, some 0x46, none] ∧
    Shows [b, 0x46, 0x80] 3 = [some b, some 0x46, some 0x80] := by decide

/-- The RM_REG rules, `mod = 2`: cut after one byte, and whole. -/
theorem witness_rm_reg_disp16 : ∀ b ∈ ([0x88, 0x89, 0x8A, 0x8B] : List Byte),
    fieldsOf 0x80 = (2, 0, 0) ∧ Shows [b, 0x80, 1] 4 = [some b, some 0x80, some 1, none] ∧
    Shows [b, 0x80, 0x00, 0x80] 4 = [some b, some 0x80, some 0x00, some 0x80] := by decide

/-- The IMM_RM rules (`MovRm8Imm8DecodesAndEmits`, `MovRm16Imm16DecodesAndEmits`) before the immediate: no byte 2, and a cut address or
displacement. -/
theorem witness_imm_rm_cut : ∀ b ∈ ([0xC6, 0xC7] : List Byte),
    Shows [b] 2 = [some b, none] ∧ fieldsOf 0x06 = (0, 0, 6) ∧ Shows [b, 0x06, 1] 4 = [some b, some 0x06, some 1, none] ∧
    fieldsOf 0x47 = (1, 0, 7) ∧ Shows [b, 0x47] 3 = [some b, some 0x47, none] ∧
    fieldsOf 0x87 = (2, 0, 7) ∧ Shows [b, 0x87, 1] 4 = [some b, some 0x87, some 1, none] := by decide

/-- The IMM_RM rules with a byte immediate, for each form: missing, and there. -/
theorem witness_imm_rm_byte :
    fieldsOf 0xC7 = (3, 0, 7) ∧ Shows [0xC6, 0xC7] 3 = [some 0xC6, some 0xC7, none] ∧
    Shows [0xC6, 0xC7, 0xFF] 3 = [some 0xC6, some 0xC7, some 0xFF] ∧
    fieldsOf 0x05 = (0, 0, 5) ∧ Shows [0xC6, 0x05] 3 = [some 0xC6, some 0x05, none] ∧
    Shows [0xC6, 0x05, 0] 3 = [some 0xC6, some 0x05, some 0] ∧
    Shows [0xC6, 0x06, 1, 2] 5 = [some 0xC6, some 0x06, some 1, some 2, none] ∧
    Shows [0xC6, 0x06, 1, 2, 3] 5 = [some 0xC6, some 0x06, some 1, some 2, some 3] ∧
    Shows [0xC6, 0x47, 1] 4 = [some 0xC6, some 0x47, some 1, none] ∧
    Shows [0xC6, 0x47, 1, 2] 4 = [some 0xC6, some 0x47, some 1, some 2] ∧
    Shows [0xC6, 0x87, 1, 2] 5 = [some 0xC6, some 0x87, some 1, some 2, none] ∧
    Shows [0xC6, 0x87, 1, 2, 3] 5 = [some 0xC6, some 0x87, some 1, some 2, some 3] := by decide

/-- The IMM_RM rules with a word immediate, for each form: one byte of two missing, and both there. -/
theorem witness_imm_rm_word :
    Shows [0xC7, 0xC7, 1] 4 = [some 0xC7, some 0xC7, some 1, none] ∧
    Shows [0xC7, 0xC7, 1, 2] 4 = [some 0xC7, some 0xC7, some 1, some 2] ∧
    Shows [0xC7, 0x05, 1] 4 = [some 0xC7, some 0x05, some 1, none] ∧
    Shows [0xC7, 0x05, 1, 2] 4 = [some 0xC7, some 0x05, some 1, some 2] ∧
    Shows [0xC7, 0x06, 1, 2, 3] 6 = [some 0xC7, some 0x06, some 1, some 2, some 3, none] ∧
    Shows [0xC7, 0x06, 1, 2, 3, 4] 6 = [some 0xC7, some 0x06, some 1, some 2, some 3, some 4] ∧
    Shows [0xC7, 0x47, 1, 2] 5 = [some 0xC7, some 0x47, some 1, some 2, none] ∧
    Shows [0xC7, 0x47, 1, 2, 3] 5 = [some 0xC7, some 0x47, some 1, some 2, some 3] ∧
    Shows [0xC7, 0x87, 1, 2, 3] 6 = [some 0xC7, some 0x87, some 1, some 2, some 3, none] ∧
    Shows [0xC7, 0x87, 1, 2, 3, 4] 6 = [some 0xC7, some 0x87, some 1, some 2, some 3, some 4] := by decide

/-- The IMM_REG rules: the lowest and the highest code, cut and whole. -/
theorem witness_imm_reg : ∀ code ∈ [0, 7], code < 8 ∧
    Shows [BitVec.ofNat 8 (0xB0 + code)] 2 = [some (BitVec.ofNat 8 (0xB0 + code)), none] ∧
    Shows [BitVec.ofNat 8 (0xB0 + code), 0x80] 2 = [some (BitVec.ofNat 8 (0xB0 + code)), some 0x80] ∧
    Shows [BitVec.ofNat 8 (0xB8 + code), 0x80] 3 = [some (BitVec.ofNat 8 (0xB8 + code)), some 0x80, none] ∧
    Shows [BitVec.ofNat 8 (0xB8 + code), 0x80, 0xFF] 3 = [some (BitVec.ofNat 8 (0xB8 + code)), some 0x80, some 0xFF] := by decide

/-- The accumulator rules: cut and whole. -/
theorem witness_accumulator : ∀ b ∈ ([0xA0, 0xA1, 0xA2, 0xA3] : List Byte),
    Shows [b, 1] 3 = [some b, some 1, none] ∧ Shows [b, 0xFF, 0xFF] 3 = [some b, some 0xFF, some 0xFF] := by decide

/-- `UnsupportedFirstByteHalts`: the last stream byte, at a range's end. -/
theorem witness_unsupported : Shows [0x87] 2 = [some 0x87, none] ∧ inUnsupportedRange 0x87 = true := by decide

/-- `NonZeroRegFieldIsInvalid`: `reg` 1 and 7. -/
theorem witness_invalid : ∀ b ∈ ([0xC6, 0xC7] : List Byte),
    Shows [b, 0x48] 3 = [some b, some 0x48, none] ∧ fieldsOf 0x48 = (1, 1, 0) ∧
    Shows [b, 0xFF] 2 = [some b, some 0xFF] ∧ fieldsOf 0xFF = (3, 7, 7) := by decide

/-- `DecodeDependsOnlyOnTheBytesAhead`: two states with different cursors and histories and the same bytes ahead. -/
theorem witness_same_bytes_ahead :
    let s := State.boot [0x8A, 0x00]
    let t : State := { State.boot [0xB0, 0x01, 0x8A, 0x00] with pos := 2, out := [⟨0, 2, movOf (.register .al) (.immediate 1 .byte)⟩] }
    s.st = .reading ∧ t.st = .reading ∧ s.pos < s.len ∧ t.pos < t.len ∧
    ∀ k, k < 6 → s.readByte (s.pos + k) = t.readByte (t.pos + k) := by decide

/-- `NoStepWritesTheStream`, `CursorAdvancesByWholeInstructions`: a step that emits; `DecodeOneMeetsItsContract`: its decode. -/
theorem witness_step_next :
    (step (State.boot [0x8A, 0x00]) = .next { State.boot [0x8A, 0x00] with
      pos := 2, out := [⟨0, 2, movOf (.register .al) (memOf [.bx, .si] none)⟩] }) ∧
    0 < (State.boot [0x8A, 0x00]).len ∧
    decodeOne (State.boot [0x8A, 0x00]) 0 = .ok (movOf (.register .al) (memOf [.bx, .si] none), 2) := ⟨rfl, by decide, rfl⟩

/-- `ErrorsByFormat`: an error of each format. -/
theorem witness_errors_by_format :
    decodeOne (State.boot [0x90]) 0 = .error ⟨.unsupportedOpcode, 0, 0x90, .classify⟩ ∧
    decodeOne (State.boot [0x8A, 0x06, 0x01]) 0 = .error ⟨.truncatedStream, 0, 0x8A, .address⟩ ∧
    decodeOne (State.boot [0xB8, 0x01]) 0 = .error ⟨.truncatedStream, 0, 0xB8, .immediate⟩ ∧
    decodeOne (State.boot [0xC7, 0x07]) 0 = .error ⟨.truncatedStream, 0, 0xC7, .immediate⟩ ∧
    decodeOne (State.boot [0xC6, 0x0F]) 0 = .error ⟨.invalidFieldCombination, 0, 0xC6, .modrm⟩ ∧
    decodeOne (State.boot [0xA3]) 0 = .error ⟨.truncatedStream, 0, 0xA3, .address⟩ := ⟨rfl, rfl, rfl, rfl, rfl, rfl⟩

/-- `RedundantEncodingsEmitOneValue`: six bytes ahead. -/
theorem witness_six_bytes : (State.boot [0, 0, 0, 0, 0, 0]).pos + 6 ≤ (State.boot [0, 0, 0, 0, 0, 0]).len := by decide

/-- `ImmRegValuesTellTheEncoding`: one instruction in two states. -/
theorem witness_imm_reg_value :
    let v := movOf (.register .cl) (.immediate 12 .byte)
    isImmReg (.movR8Imm8 1 12) = true ∧
    (exec (.movR8Imm8 1 12) (State.boot [0xB1, 0x0C]) =
      .next { State.boot [0xB1, 0x0C] with pos := 2, out := (State.boot [0xB1, 0x0C]).out ++ [⟨0, 2, v⟩] }) ∧
    exec (.movR8Imm8 1 12) (State.boot [0, 0, 0]) =
      .next { State.boot [0, 0, 0] with pos := 2, out := (State.boot [0, 0, 0]).out ++ [⟨0, 2, v⟩] } := ⟨rfl, rfl, rfl⟩

/-- The invariant in the middle of a run, with one entry emitted (`EveryStepKeepsTheInvariant`, `InvariantStatesAlwaysStep`,
`EveryRunHaltsWithinItsBound`). -/
theorem witness_invariant_in_a_run :
    let s : State := { State.boot [0x8A, 0x00, 0xB0, 0x07] with
      pos := 2, out := [⟨0, 2, movOf (.register .al) (memOf [.bx, .si] none)⟩] }
    s.Inv ∧ step s = .next { s with pos := 4, out := s.out ++ [⟨2, 2, movOf (.register .al) (.immediate 7 .byte)⟩] } :=
  ⟨⟨rfl, by decide, by decide, by decide, (fun _ h => nomatch h), (fun h => nomatch h), rfl, by decide, rfl, rfl⟩, rfl⟩

/-- The invariant in Failed. -/
theorem witness_invariant_failed :
    ({ State.boot [0x90] with st := .failed, err := some ⟨.unsupportedOpcode, 0, 0x90, .classify⟩ } : State).Inv :=
  ⟨rfl, by decide, by decide, by decide, fun e h => by cases h; exact ⟨by decide, rfl⟩, by simp, rfl⟩

/-- `BootedStateHoldsItsStream`: a read that ends at the end of the stream, and one that passes it. -/
theorem witness_mem_read :
    (State.boot [1, 0, 2]).memRead 1 2 = some [0, 2] ∧ (State.boot [1, 0, 2]).memRead 2 2 = none := by decide

/-- `PlacedWordRunsNext`: a canonical stream, and a word that decodes. -/
theorem witness_placed_word :
    Memory.wf (State.boot [1, 0, 2]).mem = true ∧ decodeTableWord 24 0x0201A0 = some (.movAlAddr 0x0201) := by decide

/-- `MemoryTextJoinsComponents`: rows at both ends, and a displacement of each sign. -/
theorem witness_memory_text : (0 < 8 ∧ 7 < 8) ∧ ((0 : Int) = 0) ∧ (0 : Int) < 32767 ∧ (-32768 : Int) < 0 := by decide

/-- The memory of the state after reset is canonical, and nothing is listed. -/
theorem test_reset_memory : Memory.wf State.reset.mem = true ∧ State.reset.mem = [] := ⟨rfl, rfl⟩

/-- Writing the value that an unlisted address reads as removes the entry. -/
theorem test_memory_write_canonical :
    Memory.write (Memory.write [] 3 7) 3 0 = [] ∧ Memory.write (Memory.write [] 3 7) 1 5 = [(1, 5), (3, 7)] := by decide

end Sys2Proof.Tests
end

section
/-! PROOF. What the decoder accepts: every accepted list of bytes is the encoding of the instruction it gives, followed by the bytes
it leaves (`30_encoding.md` R76, `47_driver_and_output.md` R174); and what it never answers when there is a byte 1. -/

namespace Sys2Proof

/-! ## The bytes of an accepted instruction -/

/-- A read whose value is only wrapped gives a result exactly when the read does. -/
theorem Parsed.andThen_pure_eq_ok {α β : Type} {p : Parsed α} {f : α → β} {b : β} {rest : List Byte} :
    Parsed.andThen p (fun a rest => .ok (f a, rest)) = .ok (b, rest) ↔ ∃ a, p = .ok (a, rest) ∧ f a = b := by
  rcases p with e | ⟨a, rest'⟩
  · simp
  · simp [and_comm]

/-- The first byte of an IMM_REG instruction, by its `w` bit (`30_encoding.md` R62). -/
theorem immReg_firstByte : ∀ b : Byte, classify b = some .immReg →
    (extract b 5 1 = 0 → b = 0b10110#5 ++ extract b 6 3) ∧ (extract b 5 1 ≠ 0 → b = 0b10111#5 ++ extract b 6 3) := by
  decide

/-- The first byte of a format whose only field is `w`, by that bit (`30_encoding.md` R63 to R65). -/
theorem wBit_firstByte : ∀ b : Byte,
    (classify b = some .immRm → (extract b 8 1 = 0 → b = 0xC6) ∧ (extract b 8 1 ≠ 0 → b = 0xC7)) ∧
    (classify b = some .memAcc → (extract b 8 1 = 0 → b = 0xA0) ∧ (extract b 8 1 ≠ 0 → b = 0xA1)) ∧
    (classify b = some .accMem → (extract b 8 1 = 0 → b = 0xA2) ∧ (extract b 8 1 ≠ 0 → b = 0xA3)) := by
  decide

theorem encode_rmRegInstr (d w : BitVec 1) (reg : BitVec 3) (f : RmField) :
    encode (rmRegInstr d w reg f) = (0b100010#6 ++ d ++ w) :: f.addressingByte reg :: f.tail := by
  obtain rfl | rfl := BitVec.eq_zero_or_eq_one d <;> obtain rfl | rfl := BitVec.eq_zero_or_eq_one w <;> rfl

theorem rmRegInstr_wf (d w : BitVec 1) (reg : BitVec 3) (f : RmField) : (rmRegInstr d w reg f).wf = f.wf := by
  unfold rmRegInstr
  split_ifs <;> rfl

/-- The operand decoder, given the `mod` and `rm` of an addressing byte, reads a form with that addressing byte. -/
theorem decodeRm_of_addressingByte {b2 : Byte} {bs rest : List Byte} {f : RmField}
    (h : decodeRm (extract b2 1 2) (extract b2 6 3) bs = .ok (f, rest)) :
    f.wf = true ∧ f.addressingByte (extract b2 3 3) = b2 ∧ bs = f.tail ++ rest := by
  obtain ⟨hwf, hmod, hrm, hbs⟩ := decodeRm_eq_ok h
  refine ⟨hwf, ?_, hbs⟩
  rw [RmField.addressingByte, hmod, hrm, append_of_fields]

theorem decodeImmReg_eq_ok {b1 : Byte} {bs rest : List Byte} {i : Instr} (hc : classify b1 = some .immReg)
    (h : decodeImmReg b1 bs = .ok (i, rest)) : i.wf = true ∧ b1 :: bs = encode i ++ rest := by
  obtain ⟨hb0, hb1⟩ := immReg_firstByte b1 hc
  unfold decodeImmReg at h
  split_ifs at h with hw
  · obtain ⟨v, ht, rfl⟩ := Parsed.andThen_pure_eq_ok.1 h
    refine ⟨rfl, ?_⟩
    simp [encode, ← hb0 hw, takeByte_eq_ok.1 ht]
  · obtain ⟨v, ht, rfl⟩ := Parsed.andThen_pure_eq_ok.1 h
    refine ⟨rfl, ?_⟩
    simp [encode, ← hb1 hw, takeWord_eq_ok.1 ht]

theorem decodeRmReg_eq_ok {b1 : Byte} {bs rest : List Byte} {i : Instr} (hc : classify b1 = some .rmReg)
    (h : decodeRmReg b1 bs = .ok (i, rest)) : i.wf = true ∧ b1 :: bs = encode i ++ rest := by
  obtain ⟨-, hb, -⟩ := classify_cases b1
  obtain ⟨b2, bs', ht, htail⟩ := Parsed.andThen_eq_ok.1 h
  obtain ⟨f, hf, rfl⟩ := Parsed.andThen_pure_eq_ok.1 htail
  obtain ⟨hwf, hb2, rfl⟩ := decodeRm_of_addressingByte hf
  refine ⟨(rmRegInstr_wf _ _ _ f).trans hwf, ?_⟩
  rw [encode_rmRegInstr, ← hb hc, hb2, takeByte_eq_ok.1 ht]
  rfl

theorem decodeImmRm_eq_ok {b1 : Byte} {bs rest : List Byte} {i : Instr} (hc : classify b1 = some .immRm)
    (h : decodeImmRm b1 bs = .ok (i, rest)) : i.wf = true ∧ b1 :: bs = encode i ++ rest := by
  obtain ⟨hb, -, -⟩ := wBit_firstByte b1
  obtain ⟨hb0, hb1⟩ := hb hc
  obtain ⟨b2, bs', ht, htail⟩ := Parsed.andThen_eq_ok.1 h
  have hreg : extract b2 3 3 = 0#3 := by
    by_contra hne
    rw [if_pos hne] at htail
    cases htail
  rw [if_neg (not_not.2 hreg)] at htail
  obtain ⟨f, bs'', hf, himm⟩ := Parsed.andThen_eq_ok.1 htail
  obtain ⟨hwf, hb2, rfl⟩ := decodeRm_of_addressingByte hf
  rw [hreg] at hb2
  rw [takeByte_eq_ok.1 ht]
  split_ifs at himm with hw
  · obtain ⟨v, hv, rfl⟩ := Parsed.andThen_pure_eq_ok.1 himm
    refine ⟨hwf, ?_⟩
    simp [encode, hb0 hw, hb2, takeByte_eq_ok.1 hv]
  · obtain ⟨v, hv, rfl⟩ := Parsed.andThen_pure_eq_ok.1 himm
    refine ⟨hwf, ?_⟩
    simp [encode, hb1 hw, hb2, takeWord_eq_ok.1 hv]

theorem decodeMemAcc_eq_ok {b1 : Byte} {bs rest : List Byte} {i : Instr} (hc : classify b1 = some .memAcc)
    (h : decodeMemAcc b1 bs = .ok (i, rest)) : i.wf = true ∧ b1 :: bs = encode i ++ rest := by
  obtain ⟨-, hb, -⟩ := wBit_firstByte b1
  obtain ⟨hb0, hb1⟩ := hb hc
  obtain ⟨a, ht, rfl⟩ := Parsed.andThen_pure_eq_ok.1 h
  rw [takeWord_eq_ok.1 ht]
  split_ifs with hw
  · exact ⟨rfl, by simp [encode, hb0 hw]⟩
  · exact ⟨rfl, by simp [encode, hb1 hw]⟩

theorem decodeAccMem_eq_ok {b1 : Byte} {bs rest : List Byte} {i : Instr} (hc : classify b1 = some .accMem)
    (h : decodeAccMem b1 bs = .ok (i, rest)) : i.wf = true ∧ b1 :: bs = encode i ++ rest := by
  obtain ⟨-, -, hb⟩ := wBit_firstByte b1
  obtain ⟨hb0, hb1⟩ := hb hc
  obtain ⟨a, ht, rfl⟩ := Parsed.andThen_pure_eq_ok.1 h
  rw [takeWord_eq_ok.1 ht]
  split_ifs with hw
  · exact ⟨rfl, by simp [encode, hb0 hw]⟩
  · exact ⟨rfl, by simp [encode, hb1 hw]⟩

/-- Every accepted list of bytes is a well-formed instruction's encoding and the bytes left over. -/
theorem decode_eq_ok {bs rest : List Byte} {i : Instr} (h : decode bs = .ok (i, rest)) :
    i.wf = true ∧ bs = encode i ++ rest := by
  cases bs with
  | nil => cases h
  | cons b1 bs =>
    simp only [decode] at h
    split at h
    next hc => exact decodeImmReg_eq_ok hc h
    next hc => exact decodeRmReg_eq_ok hc h
    next hc => exact decodeImmRm_eq_ok hc h
    next hc => exact decodeMemAcc_eq_ok hc h
    next hc => exact decodeAccMem_eq_ok hc h
    next hc =>
      obtain ⟨rfl, rfl⟩ : Instr.unsupportedFirstByte b1 = i ∧ bs = rest := by simpa using h
      exact ⟨(classify_eq_none_iff b1).1 hc, rfl⟩

/-! ## Where there is a byte 1 -/

theorem Parsed.andThen_ne_noByte {α β : Type} {p : Parsed α} {k : α → List Byte → Parsed β} (hp : p ≠ .error .noByte)
    (hk : ∀ a rest, k a rest ≠ .error .noByte) : Parsed.andThen p k ≠ .error .noByte := by
  rw [Ne, Parsed.andThen_eq_error]
  rintro (h | ⟨a, rest, -, h⟩)
  · exact hp h
  · exact hk a rest h

theorem takeByte_ne_noByte (g : Stage) (bs : List Byte) : takeByte g bs ≠ .error .noByte := by
  simp [takeByte_eq_error]

theorem takeWord_ne_noByte (g : Stage) (bs : List Byte) : takeWord g bs ≠ .error .noByte := by
  simp [takeWord_eq_error]

theorem decodeRm_ne_noByte (m : BitVec 2) (rm : BitVec 3) (bs : List Byte) : decodeRm m rm bs ≠ .error .noByte := by
  unfold decodeRm
  split_ifs
  · nofun
  · exact Parsed.andThen_ne_noByte (takeWord_ne_noByte _ _) nofun
  · nofun
  · exact Parsed.andThen_ne_noByte (takeByte_ne_noByte _ _) nofun
  · exact Parsed.andThen_ne_noByte (takeWord_ne_noByte _ _) nofun

theorem decodeImmReg_ne_noByte (b1 : Byte) (bs : List Byte) : decodeImmReg b1 bs ≠ .error .noByte := by
  unfold decodeImmReg
  split_ifs
  · exact Parsed.andThen_ne_noByte (takeByte_ne_noByte _ _) nofun
  · exact Parsed.andThen_ne_noByte (takeWord_ne_noByte _ _) nofun

theorem decodeRmReg_ne_noByte (b1 : Byte) (bs : List Byte) : decodeRmReg b1 bs ≠ .error .noByte :=
  Parsed.andThen_ne_noByte (takeByte_ne_noByte _ _) fun _ _ => Parsed.andThen_ne_noByte (decodeRm_ne_noByte _ _ _) nofun

theorem decodeImmRm_ne_noByte (b1 : Byte) (bs : List Byte) : decodeImmRm b1 bs ≠ .error .noByte := by
  refine Parsed.andThen_ne_noByte (takeByte_ne_noByte _ _) fun b2 rest => ?_
  split
  · nofun
  · refine Parsed.andThen_ne_noByte (decodeRm_ne_noByte _ _ _) fun f rest => ?_
    split_ifs with hw
    · exact Parsed.andThen_ne_noByte (takeByte_ne_noByte _ _) nofun
    · exact Parsed.andThen_ne_noByte (takeWord_ne_noByte _ _) nofun

/-- `noByte` is the answer to the empty list and to no other. -/
theorem decode_cons_ne_noByte (b1 : Byte) (bs : List Byte) : decode (b1 :: bs) ≠ .error .noByte := by
  simp only [decode]
  split
  · exact decodeImmReg_ne_noByte b1 bs
  · exact decodeRmReg_ne_noByte b1 bs
  · exact decodeImmRm_ne_noByte b1 bs
  · exact Parsed.andThen_ne_noByte (takeWord_ne_noByte _ _) nofun
  · exact Parsed.andThen_ne_noByte (takeWord_ne_noByte _ _) nofun
  · nofun

end Sys2Proof
end

section
/-! PROOF. What a step in Reading yields is fixed by the bytes ahead of the cursor (`10_state.md` R33). -/

namespace Sys2Proof.Machine

open Sys2Proof.Claims

/-- An encoding is byte 1 and the groups of bytes that the meaning takes. -/
theorem length_eq_fieldBytes (i : Instr) : i.length = 1 + fieldBytes (instrFields i) := by
  cases i with
  | movRm8R8 reg rm => exact Laws.FieldBytes.movRm8R8 reg rm
  | movRm16R16 reg rm => exact Laws.FieldBytes.movRm16R16 reg rm
  | movR8Rm8 reg rm => exact Laws.FieldBytes.movR8Rm8 reg rm
  | movR16Rm16 reg rm => exact Laws.FieldBytes.movR16Rm16 reg rm
  | movR8Imm8 reg imm => exact Laws.FieldBytes.movR8Imm8 reg imm
  | movR16Imm16 reg imm => exact Laws.FieldBytes.movR16Imm16 reg imm
  | movRm8Imm8 rm imm => exact Laws.FieldBytes.movRm8Imm8 rm imm
  | movRm16Imm16 rm imm => exact Laws.FieldBytes.movRm16Imm16 rm imm
  | movAlAddr addr => exact Laws.FieldBytes.movAlAddr addr
  | movAxAddr addr => exact Laws.FieldBytes.movAxAddr addr
  | movAddrAl addr => exact Laws.FieldBytes.movAddrAl addr
  | movAddrAx addr => exact Laws.FieldBytes.movAddrAx addr
  | unsupportedFirstByte byte => exact Laws.FieldBytes.unsupportedFirstByte byte

/-- An instruction that the window decodes to has all its bytes in the stream. -/
theorem decode_window_fits {s : State} {i : Instr} {rest : List Byte} (hp : s.pos < s.len)
    (h : decode s.window = .ok (i, rest)) : s.pos + i.length ≤ s.len := by
  obtain ⟨-, hw⟩ := decode_eq_ok h
  have hlen : min Config.maxLength (s.len - s.pos) = i.length + rest.length := by
    rw [← s.bytesFrom_length s.pos, ← State.window, hw, List.length_append, Instr.length]
  omega

/-- The meaning of a decoded instruction that has a value emits that value. -/
theorem exec_of_decode_window {s : State} {i : Instr} {rest : List Byte} {v : Instruction} (hp : s.pos < s.len)
    (h : decode s.window = .ok (i, rest)) (hv : instrValue i = some v) : exec i s = .next (s.emit i.length v) := by
  have hfit := decode_window_fits hp h
  rw [length_eq_fieldBytes] at hfit
  rw [exec_eq_deliver hv, State.deliver_whole v (by omega), length_eq_fieldBytes]

theorem yields_emit (s : State) (n : Nat) (v : Instruction) : Yields s (s.emit n v) (.ok (v, n)) := ⟨rfl, rfl⟩

theorem yields_setFailed (s : State) (e : ErrorRecord) : Yields s (s.setFailed e) (.error (e.kind, e.byte, e.stage)) :=
  ⟨e, rfl, rfl, rfl, rfl⟩

/-- Raising yields the error, with the byte at the cursor. -/
theorem raise_yields {s : State} {b : Byte} (h : s.readByte s.pos = some b) (kind : ErrorKind) (stage : Stage) :
    ∃ t, s.raise kind stage = .next t ∧ Yields s t (.error (kind, b, stage)) :=
  ⟨_, State.raise_of_read h kind stage, yields_setFailed s _⟩

/-- One result for each list of bytes: every state in Reading that has these bytes as its window yields it (`10_state.md` R33). The
result is chosen before the state. -/
theorem exists_result_of_window (b : Byte) (bs : List Byte) :
    ∃ r, ∀ s : State, s.st = .reading → s.window = b :: bs → ∃ t, step s = .next t ∧ Yields s t r := by
  have byte_of_window {s : State} (hw : s.window = b :: bs) : s.readByte s.pos = some b := by
    simpa [hw, Config.maxLength] using (s.window_getElem? 0).symm
  have lt_of_window {s : State} (hw : s.window = b :: bs) : s.pos < s.len :=
    (State.readByte_some_iff.1 (byte_of_window hw)).1
  rcases hd : decode (b :: bs) with (_ | g | g) | ⟨i, rest⟩
  · exact absurd hd (decode_cons_ne_noByte b bs)
  · refine ⟨.error (.truncatedStream, b, g), fun s hs hw => ?_⟩
    rw [step_of_truncated hs (lt_of_window hw).ne (hw ▸ hd)]
    exact raise_yields (byte_of_window hw) _ _
  · refine ⟨.error (.invalidFieldCombination, b, g), fun s hs hw => ?_⟩
    rw [step_of_invalid hs (lt_of_window hw).ne (hw ▸ hd)]
    exact raise_yields (byte_of_window hw) _ _
  · cases hv : instrValue i with
    | none =>
      refine ⟨.error (.unsupportedOpcode, b, .classify), fun s hs hw => ?_⟩
      rw [step_of_decode hs (lt_of_window hw).ne (hw ▸ hd), exec_eq_raise hv]
      exact raise_yields (byte_of_window hw) _ _
    | some v =>
      refine ⟨.ok (v, i.length), fun s hs hw => ?_⟩
      rw [step_of_decode hs (lt_of_window hw).ne (hw ▸ hd), exec_of_decode_window (lt_of_window hw) (hw ▸ hd) hv]
      exact ⟨_, rfl, yields_emit s _ _⟩

/-- States with the same reads ahead of the cursor have the same window. -/
theorem window_eq_of_readByte_eq {s s' : State}
    (h : ∀ k, k < Config.maxLength → s.readByte (s.pos + k) = s'.readByte (s'.pos + k)) : s.window = s'.window := by
  refine List.ext_getElem? fun k => ?_
  rw [State.window_getElem?, State.window_getElem?]
  split_ifs with hk
  · exact h k hk
  · rfl

/-- Inside the stream the window starts with the byte at the cursor. -/
theorem window_eq_cons {s : State} (hp : s.pos < s.len) : ∃ bs, s.window = s.streamByte s.pos :: bs :=
  ⟨s.bytesFrom (s.pos + 1) 5, by rw [State.window, Config.maxLength, State.bytesFrom, if_pos hp, State.streamByte]⟩

/-- Settles O37: the two states have one window, and the window alone fixes the result. -/
theorem decodeDependsOnlyOnTheBytesAhead : Obligations.DecodeDependsOnlyOnTheBytesAhead := by
  intro s s' hs hs' hp _ hahead
  obtain ⟨bs, hw⟩ := window_eq_cons hp
  obtain ⟨r, hr⟩ := exists_result_of_window (s.streamByte s.pos) bs
  obtain ⟨t, ht, hy⟩ := hr s hs hw
  obtain ⟨t', ht', hy'⟩ := hr s' hs' ((window_eq_of_readByte_eq hahead).symm.trans hw)
  exact ⟨r, t, t', ht, ht', hy, hy'⟩

end Sys2Proof.Machine
end

section
/-! PROOF. The leaf components: the bits that `extract` takes (`40_bitfield_and_tables.md` R90), and the register table with the
lookup that inverts it (R95, R96). -/

namespace Sys2Proof

theorem extract_toNat (b : Byte) (first width : Nat) (h : 1 ≤ first ∧ 1 ≤ width ∧ first + width - 1 ≤ 8) :
    (extract b first width h).toNat = (b.toNat >>> (8 - (first + width - 1))) % 2 ^ width :=
  BitVec.extractLsb'_toNat _ _ _

/-- Counted from the top, bit `k` of the slice is bit `first - 1 + k` of the byte: the slice's top bit stands `first - 1` bits below
the byte's. -/
theorem extract_getMsbD (b : Byte) (first width : Nat) (h : 1 ≤ first ∧ 1 ≤ width ∧ first + width - 1 ≤ 8) {k : Nat}
    (hk : k < width) : (extract b first width h).getMsbD k = b.getMsbD (first - 1 + k) := by
  have hin : 8 - (first + width - 1) + width - k ≤ 8 := by omega
  have hpos : 8 - (8 - (first + width - 1) + width - k) = first - 1 + k := by omega
  rw [extract, BitVec.getMsbD_extractLsb', hpos, decide_eq_true hk, decide_eq_true hin, Bool.true_and, Bool.true_and]

/-- Settles O1: the value by the definition of the slice, the bits by their positions from the top. -/
theorem extractReturnsTheBitSlice : Obligations.ExtractReturnsTheBitSlice :=
  fun b first width h => ⟨extract_toNat b first width h, fun _ hk => extract_getMsbD b first width h hk⟩

end Sys2Proof

namespace Sys2Proof.Machine

open Sys2Proof.Claims

theorem registerColumn_getElem? (w : Width) (code : BitVec 3) : (registerColumn w)[code.toNat]? = some (regLookup w code) := by
  cases w <;> revert code <;> decide

/-- The width whose column lists the name. -/
def registerWidth (r : RegisterName) : Width := if r ∈ registerColumn .byte then .byte else .word

/-- The name's place in its column. -/
def registerCode (r : RegisterName) : BitVec 3 := BitVec.ofNat 3 ((registerColumn (registerWidth r)).idxOf r)

@[simp] theorem registerWidth_regLookup (w : Width) (code : BitVec 3) : registerWidth (regLookup w code) = w := by
  cases w <;> revert code <;> decide

@[simp] theorem registerCode_regLookup (w : Width) (code : BitVec 3) : registerCode (regLookup w code) = code := by
  cases w <;> revert code <;> decide

@[simp] theorem regLookup_registerCode (r : RegisterName) : regLookup (registerWidth r) (registerCode r) = r := by
  cases r <;> rfl

theorem regLookup_inj {w w' : Width} {code code' : BitVec 3} (h : regLookup w code = regLookup w' code') :
    w = w' ∧ code = code' :=
  ⟨by simpa using congrArg registerWidth h, by simpa using congrArg registerCode h⟩

/-- Settles O2: `registerWidth` and `registerCode` together invert the table on both sides. -/
theorem registerTableIsABijection : Obligations.RegisterTableIsABijection :=
  ⟨registerColumn_getElem?, fun _ _ _ _ => regLookup_inj, fun r => ⟨_, _, regLookup_registerCode r⟩⟩

end Sys2Proof.Machine
end

section
/-! PROOF. The operand decoder (`41_operand_decoder.md` R107 to R112): what it reads in each of its five cases, and the value of each
form as the spec's tables and two's complement readings give it. -/

namespace Sys2Proof

/-! ## The cases of the reading side -/

theorem decodeRm_register (rm : BitVec 3) (rest : List Byte) : decodeRm 3 rm rest = .ok (.register rm, rest) :=
  decodeRm_of_form (f := .register rm) rfl rest

theorem decodeRm_indirect {rm : BitVec 3} (h : rm ≠ 6) (rest : List Byte) : decodeRm 0 rm rest = .ok (.indirect rm, rest) :=
  decodeRm_of_form (f := .indirect rm) (bne_iff_ne.2 h) rest

theorem decodeRm_direct (lo hi : Byte) (rest : List Byte) :
    decodeRm 0 6 (lo :: hi :: rest) = .ok (.direct (joinBytes hi lo), rest) := by
  simpa [RmField.mod, RmField.rmCode, RmField.tail] using decodeRm_of_form (f := .direct (joinBytes hi lo)) rfl rest

theorem decodeRm_disp8 (rm : BitVec 3) (d : Byte) (rest : List Byte) :
    decodeRm 1 rm (d :: rest) = .ok (.disp8 rm d, rest) :=
  decodeRm_of_form (f := .disp8 rm d) rfl rest

theorem decodeRm_disp16 (rm : BitVec 3) (lo hi : Byte) (rest : List Byte) :
    decodeRm 2 rm (lo :: hi :: rest) = .ok (.disp16 rm (joinBytes hi lo), rest) := by
  simpa [RmField.mod, RmField.rmCode, RmField.tail] using decodeRm_of_form (f := .disp16 rm (joinBytes hi lo)) rfl rest

end Sys2Proof

namespace Sys2Proof.Machine

open Sys2Proof.Claims

/-! ## The operand values against the tables -/

theorem joinBytes_eq_ofNat_pair (hi lo : Byte) : joinBytes hi lo = BitVec.ofNat 16 (pair lo hi) := by
  rw [pair, ← joinBytes_toNat, BitVec.ofNat_toNat, BitVec.setWidth_eq]

theorem baseRows_getElem? : ∀ rm : BitVec 3, baseRows[rm.toNat]? = some (eaComponents rm) := by
  decide

theorem regOperand_eq_reg (w : Width) (code : BitVec 3) : regOperand w code = reg w code.toNat := by
  simp [regOperand, reg, List.getD_eq_getElem?_getD, registerColumn_getElem?]

theorem tableOperand_eq_mem (rm : BitVec 3) (d : Option Int) : tableOperand rm d = mem rm.toNat d := by
  simp [tableOperand, mem, List.getD_eq_getElem?_getD, baseRows_getElem?]

theorem directOperand_joinBytes (hi lo : Byte) : directOperand (joinBytes hi lo) = direct lo hi := by
  rw [directOperand, direct, joinBytes_eq_ofNat_pair]

/-! ## The signed displacements -/

/-- Sign extension keeps the signed number, which is the byte's two's complement reading (`41_operand_decoder.md` R109). -/
theorem signed16_sext16 (d : Byte) : signed16 (sext16 d) = disp8 d := by
  rw [signed16, sext16, BitVec.toInt_signExtend_of_le (by decide), BitVec.toInt_eq_toNat_cond, disp8]
  split_ifs <;> omega

theorem signed16_joinBytes (hi lo : Byte) : signed16 (joinBytes hi lo) = disp16 lo hi := by
  rw [signed16, BitVec.toInt_eq_toNat_cond, joinBytes_toNat, disp16, pair]
  split_ifs <;> omega

theorem disp8_bounds (d : Byte) : -128 ≤ disp8 d ∧ disp8 d ≤ 127 := by
  have := d.isLt
  unfold disp8
  split_ifs <;> omega

/-! ## The value of each form -/

theorem rmOperand_register (w : Width) (code : BitVec 3) : rmOperand w (.register code) = reg w code.toNat :=
  regOperand_eq_reg w code

theorem rmOperand_indirect (w : Width) (rm : BitVec 3) : rmOperand w (.indirect rm) = mem rm.toNat none :=
  tableOperand_eq_mem rm none

theorem rmOperand_direct (w : Width) (lo hi : Byte) : rmOperand w (.direct (joinBytes hi lo)) = direct lo hi :=
  directOperand_joinBytes hi lo

theorem rmOperand_disp8 (w : Width) (rm : BitVec 3) (d : Byte) :
    rmOperand w (.disp8 rm d) = mem rm.toNat (some (disp8 d)) := by
  rw [rmOperand, signed16_sext16, tableOperand_eq_mem]

theorem rmOperand_disp16 (w : Width) (rm : BitVec 3) (lo hi : Byte) :
    rmOperand w (.disp16 rm (joinBytes hi lo)) = mem rm.toNat (some (disp16 lo hi)) := by
  rw [rmOperand, signed16_joinBytes, tableOperand_eq_mem]

/-- Settles O6: case by case, what is read and what the form's value is. -/
theorem operandDecoderForms : Obligations.OperandDecoderForms := by
  intro w rm rest
  refine ⟨⟨decodeRm_register rm rest, rmOperand_register w rm⟩, fun h => ?_, fun lo hi => ?_, fun d => ?_, fun lo hi => ?_⟩
  · have hrm : rm ≠ 6 := fun h6 => h (congrArg BitVec.toNat h6)
    exact ⟨decodeRm_indirect hrm rest, rmOperand_indirect w rm⟩
  · exact ⟨_, decodeRm_direct lo hi rest, rmOperand_direct w lo hi⟩
  · exact ⟨decodeRm_disp8 rm d rest, rmOperand_disp8 w rm d, disp8_bounds d⟩
  · exact ⟨_, decodeRm_disp16 rm lo hi rest, rmOperand_disp16 w rm lo hi⟩

/-! ## The zero displacement, and the width of a displacement -/

theorem mem_injective (row : Nat) : Function.Injective (mem row) := by
  intro d d' h
  simpa [mem] using h

theorem renderOperand_mem_zero (row : Nat) : renderOperand (mem row (some 0)) = renderOperand (mem row none) := rfl

theorem disp8_zero : disp8 0 = 0 := by decide

theorem disp16_zero : disp16 0 0 = 0 := by decide

/-- A displacement byte and the word it extends to are one value, in the two bytes of the word. -/
theorem rmOperand_disp16_sext16 (w : Width) (rm : BitVec 3) (d : Byte) :
    rmOperand w (.disp16 rm (sext16 d)) = rmOperand w (.disp8 rm d) := rfl

/-- Settles O7: the zero is `disp8 0` and `disp16 0 0`; a displacement byte and the two bytes of its sign extension give one value. -/
theorem zeroDisplacementIsKeptAndRendersAsAbsent : Obligations.ZeroDisplacementIsKeptAndRendersAsAbsent := by
  intro w rm rest
  refine ⟨⟨_, decodeRm_disp8 rm 0 rest, ?_⟩, ⟨_, decodeRm_disp16 rm 0 0 rest, ?_⟩,
    fun hrm => ⟨_, decodeRm_indirect hrm rest, rmOperand_indirect w rm⟩, (mem_injective rm.toNat).ne (Option.some_ne_none 0),
    renderOperand_mem_zero rm.toNat, fun d => ?_⟩
  · rw [rmOperand_disp8, disp8_zero]
  · rw [rmOperand_disp16, disp16_zero]
  · have hword := decodeRm_of_form (f := .disp16 rm (sext16 d)) rfl rest
    exact ⟨_, _, _, _, decodeRm_disp8 rm d rest, hword, (rmOperand_disp16_sext16 w rm d).symm⟩

end Sys2Proof.Machine
end

section
/-! PROOF. The classifier (`42_opcode_classifier.md` R125): each of its tests, read as a division of the byte's value. -/

namespace Sys2Proof

/-- The `width` leading bits are what division by the weight of the lowest of them leaves: R90 at the first position. -/
theorem extract_leading_toNat (b : Byte) (width : Nat) (h : 1 ≤ 1 ∧ 1 ≤ width ∧ 1 + width - 1 ≤ 8) :
    (extract b 1 width h).toNat = b.toNat / 2 ^ (8 - width) := by
  have hw : width ≤ 8 := by omega
  have hlt : b.toNat / 2 ^ (8 - width) < 2 ^ width :=
    Nat.div_lt_of_lt_mul (by rw [← pow_add, Nat.sub_add_cancel hw]; exact b.isLt)
  rw [extract_toNat, Nat.add_sub_cancel_left, Nat.shiftRight_eq_div_pow, Nat.mod_eq_of_lt hlt]

/-- One test of the classifier, as a division. -/
theorem extract_leading_eq_iff (b : Byte) {width : Nat} (h : 1 ≤ 1 ∧ 1 ≤ width ∧ 1 + width - 1 ≤ 8) (v : BitVec width) :
    extract b 1 width h = v ↔ b.toNat / 2 ^ (8 - width) = v.toNat := by
  rw [← BitVec.toNat_inj, extract_leading_toNat]

/-- Settles O4: both sides are one chain of tests, and each test is `extract_leading_eq_iff` at its width and pattern. -/
theorem classifierTestsLeadingBits : Obligations.ClassifierTestsLeadingBits := by
  intro b
  simp only [classify, extract_leading_eq_iff]
  rfl

end Sys2Proof
end

section
/-! PROOF. The instructions of RM_REG (`43_mov_rm_reg.md` R130 to R134): the addressing byte's fields as numbers, the operand decoder on
the bytes of the stream, and the rule of one first byte, which the four instructions share. -/

namespace Sys2Proof

/-! ## The fields of an addressing byte as numbers (`30_encoding.md` R66) -/

theorem extract_mod_toNat (b : Byte) : (extract b 1 2).toNat = b.toNat / 64 :=
  extract_leading_toNat b 2 (by decide)

theorem extract_reg_toNat (b : Byte) : (extract b 3 3).toNat = b.toNat / 8 % 8 := by
  simpa [Nat.shiftRight_eq_div_pow] using extract_toNat b 3 3 (by decide)

theorem extract_rm_toNat (b : Byte) : (extract b 6 3).toNat = b.toNat % 8 :=
  extract_toNat b 6 3 (by decide)

/-! ## The operand decoder where a byte is missing -/

theorem decodeRm_direct_cut {bs : List Byte} (h : bs.length < 2) :
    decodeRm 0 6 bs = .error (.truncatedStream .address) := by
  simp [decodeRm, takeWord_eq_error.2 ⟨h, rfl⟩]

theorem decodeRm_disp8_cut (rm : BitVec 3) : decodeRm 1 rm [] = .error (.truncatedStream .displacement) := by
  simp [decodeRm]

theorem decodeRm_disp16_cut (rm : BitVec 3) {bs : List Byte} (h : bs.length < 2) :
    decodeRm 2 rm bs = .error (.truncatedStream .displacement) := by
  simp [decodeRm, takeWord_eq_error.2 ⟨h, rfl⟩]

/-- The reading side of RM_REG on a list that has its addressing byte. -/
theorem decode_rmReg {b1 : Byte} (hc : classify b1 = some .rmReg) (b2 : Byte) (bs : List Byte) :
    decode (b1 :: b2 :: bs) = Parsed.andThen (decodeRm (extract b2 1 2) (extract b2 6 3) bs) fun f rest =>
      .ok (rmRegInstr (extract b1 7 1) (extract b1 8 1) (extract b2 3 3) f, rest) := by
  simp [decode, hc, decodeRmReg]

theorem decode_rmReg_cut {b1 : Byte} (hc : classify b1 = some .rmReg) :
    decode [b1] = .error (.truncatedStream .modrm) := by
  simp [decode, hc, decodeRmReg]

theorem rmRegInstr_length (d w : BitVec 1) (reg : BitVec 3) (f : RmField) :
    (rmRegInstr d w reg f).length = 2 + f.tail.length := by
  rw [Instr.length, encode_rmRegInstr, List.length_cons, List.length_cons, Nat.add_assoc, Nat.add_comm]

end Sys2Proof

namespace Sys2Proof.Machine

open Sys2Proof.Claims

/-! ## The bytes of the stream as the decoder's list -/

theorem bytesFrom_of_read {s : State} {p : Nat} {b : Byte} (h : s.readByte p = some b) (n : Nat) :
    s.bytesFrom p (n + 1) = b :: s.bytesFrom (p + 1) n := by
  obtain ⟨hp, hb⟩ := State.readByte_some_iff.1 h
  rw [State.bytesFrom, if_pos hp, hb]

theorem bytesFrom_of_two_reads {s : State} {p : Nat} {lo hi : Byte} (hlo : s.readByte p = some lo)
    (hhi : s.readByte (p + 1) = some hi) (n : Nat) : s.bytesFrom p (n + 2) = lo :: hi :: s.bytesFrom (p + 2) n := by
  rw [bytesFrom_of_read hlo, bytesFrom_of_read hhi]

theorem bytesFrom_of_none {s : State} {p : Nat} (h : s.readByte p = none) (n : Nat) : s.bytesFrom p n = [] := by
  have := State.readByte_none_iff.1 h
  exact List.eq_nil_of_length_eq_zero (by rw [State.bytesFrom_length]; omega)

/-- Where the second of two bytes is missing, fewer than two are there. -/
theorem bytesFrom_length_lt_two_of_none {s : State} {p : Nat} (h : s.readByte (p + 1) = none) (n : Nat) :
    (s.bytesFrom p n).length < 2 := by
  have := State.readByte_none_iff.1 h
  rw [State.bytesFrom_length]
  omega

/-! ## A step, by what the window decodes to -/

theorem runs_of_decode {s : State} {i : Instr} {rest : List Byte} {v : Instruction} (hs : s.st = .reading)
    (hp : s.pos < s.len) (hd : decode s.window = .ok (i, rest)) (hv : instrValue i = some v) : Runs s i i.length v :=
  ⟨step_of_decode hs hp.ne hd, _, exec_of_decode_window hp hd hv, rfl, rfl⟩

theorem truncates_of_decode {s : State} {g : Stage} (hs : s.st = .reading) (hp : s.pos < s.len)
    (hd : decode s.window = .error (.truncatedStream g)) : Truncates s g :=
  ⟨_, _, (step_of_truncated hs hp.ne hd).trans (State.raise_of_lt hp _ _), rfl, rfl, rfl⟩

/-! ## The forms of an `rm` operand, whose bytes follow the addressing byte -/

/-- The clauses that the rules of RM_REG and of IMM_RM make of the addressing byte `b2`: truncation where a byte of the operand is
missing, else `P` of the bytes up to the operand's end, its form and its value (`41_operand_decoder.md` R107 to R112, R114). -/
def RmForms (s : State) (width : Width) (b2 : Byte) (P : Nat → RmField → Operand → Prop) : Prop :=
  let mod := b2.toNat / 64
  let rm := b2.toNat % 8
  (mod = 3 → P 2 (.register (BitVec.ofNat 3 rm)) (reg width rm)) ∧
  (mod = 0 → rm ≠ 6 → P 2 (.indirect (BitVec.ofNat 3 rm)) (mem rm none)) ∧
  (mod = 0 → rm = 6 →
    (s.readByte (s.pos + 3) = none → Truncates s .address) ∧
    ∀ lo hi, s.readByte (s.pos + 2) = some lo → s.readByte (s.pos + 3) = some hi →
      P 4 (.direct (BitVec.ofNat 16 (pair lo hi))) (direct lo hi)) ∧
  (mod = 1 →
    (s.readByte (s.pos + 2) = none → Truncates s .displacement) ∧
    ∀ d, s.readByte (s.pos + 2) = some d → P 3 (.disp8 (BitVec.ofNat 3 rm) d) (mem rm (some (disp8 d)))) ∧
  (mod = 2 →
    (s.readByte (s.pos + 3) = none → Truncates s .displacement) ∧
    ∀ lo hi, s.readByte (s.pos + 2) = some lo → s.readByte (s.pos + 3) = some hi →
      P 4 (.disp16 (BitVec.ofNat 3 rm) (BitVec.ofNat 16 (pair lo hi))) (mem rm (some (disp16 lo hi))))

/-- The clauses hold when `P` holds of whatever the operand decoder reads and the step truncates wherever the operand decoder does. -/
theorem rmForms_of_decodeRm {s : State} {width : Width} {b2 : Byte} {P : Nat → RmField → Operand → Prop}
    (hok : ∀ f rest, decodeRm (extract b2 1 2) (extract b2 6 3) (s.bytesFrom (s.pos + 2) 4) = .ok (f, rest) →
      P (2 + f.tail.length) f (rmOperand width f))
    (hcut : ∀ g, decodeRm (extract b2 1 2) (extract b2 6 3) (s.bytesFrom (s.pos + 2) 4) = .error (.truncatedStream g) →
      Truncates s g) : RmForms s width b2 P := by
  unfold RmForms
  simp only [← extract_mod_toNat, ← extract_rm_toNat, BitVec.ofNat_toNat, BitVec.setWidth_eq, ← joinBytes_eq_ofNat_pair]
  generalize extract b2 1 2 = mod at *
  generalize extract b2 6 3 = rm at *
  refine ⟨fun hm => ?_, fun hm hrm => ?_, fun hm hrm => ?_, fun hm => ?_, fun hm => ?_⟩
  · obtain rfl : mod = 3 := BitVec.eq_of_toNat_eq hm
    exact rmOperand_register width rm ▸ hok _ _ (decodeRm_register rm _)
  · obtain rfl : mod = 0 := BitVec.eq_of_toNat_eq hm
    have hne : rm ≠ 6 := fun h => hrm (congrArg BitVec.toNat h)
    exact rmOperand_indirect width rm ▸ hok _ _ (decodeRm_indirect hne _)
  · obtain rfl : mod = 0 := BitVec.eq_of_toNat_eq hm
    obtain rfl : rm = 6 := BitVec.eq_of_toNat_eq hrm
    refine ⟨fun h => hcut _ (decodeRm_direct_cut (bytesFrom_length_lt_two_of_none h _)), fun lo hi hlo hhi => ?_⟩
    rw [bytesFrom_of_two_reads hlo hhi 2] at hok
    exact rmOperand_direct width lo hi ▸ hok _ _ (decodeRm_direct lo hi _)
  · obtain rfl : mod = 1 := BitVec.eq_of_toNat_eq hm
    refine ⟨fun h => hcut _ (bytesFrom_of_none h 4 ▸ decodeRm_disp8_cut rm), fun d hd => ?_⟩
    rw [bytesFrom_of_read hd 3] at hok
    exact rmOperand_disp8 width rm d ▸ hok _ _ (decodeRm_disp8 rm d _)
  · obtain rfl : mod = 2 := BitVec.eq_of_toNat_eq hm
    refine ⟨fun h => hcut _ (decodeRm_disp16_cut rm (bytesFrom_length_lt_two_of_none h _)), fun lo hi hlo hhi => ?_⟩
    rw [bytesFrom_of_two_reads hlo hhi 2] at hok
    exact rmOperand_disp16 width rm lo hi ▸ hok _ _ (decodeRm_disp16 rm lo hi _)

/-! ## The rule that the four instructions share (`43_mov_rm_reg.md` R130) -/

/-- The value of an RM_REG instruction with the two operands `r` (of the `reg` field) and `m` (of the `rm` field). -/
def rmRegValue (regIsDestination : Bool) (r m : Operand) : Instruction :=
  if regIsDestination then movOf r m else movOf m r

/-- The rule of RM_REG in terms of `RmForms`. -/
theorem rmRegRule_iff {b1 : Byte} {mk : BitVec 3 → RmField → Instr} {width : Width} {regIsDestination : Bool} :
    RmRegRule b1 mk width regIsDestination ↔ ∀ s : State, s.st = .reading → s.readByte s.pos = some b1 →
      (s.readByte (s.pos + 1) = none → Truncates s .modrm) ∧
      ∀ b2, s.readByte (s.pos + 1) = some b2 → RmForms s width b2 fun n f m =>
        Runs s (mk (BitVec.ofNat 3 (b2.toNat / 8 % 8)) f) n
          (rmRegValue regIsDestination (reg width (b2.toNat / 8 % 8)) m) :=
  Iff.rfl

/-- The RM_REG rule, for a first byte of that format whose `d` and `w` bits select `mk`, when `mk` yields the value the rule names. -/
theorem rmRegRule_of_value {b1 : Byte} {mk : BitVec 3 → RmField → Instr} {width : Width} {regIsDestination : Bool}
    (hc : classify b1 = some .rmReg) (hmk : rmRegInstr (extract b1 7 1) (extract b1 8 1) = mk)
    (hv : ∀ r f, instrValue (mk r f) = some (rmRegValue regIsDestination (regOperand width r) (rmOperand width f))) :
    RmRegRule b1 mk width regIsDestination := by
  refine rmRegRule_iff.2 fun s hs h1 => ?_
  have hp : s.pos < s.len := (State.readByte_some_iff.1 h1).1
  have hw : s.window = b1 :: s.bytesFrom (s.pos + 1) 5 := bytesFrom_of_read h1 5
  refine ⟨fun h2 => truncates_of_decode hs hp ?_, fun b2 h2 => ?_⟩
  · rw [hw, bytesFrom_of_none h2, decode_rmReg_cut hc]
  have hdecode := decode_rmReg hc b2 (s.bytesFrom (s.pos + 2) 4)
  rw [← bytesFrom_of_read h2 4, ← hw, hmk] at hdecode
  simp only [← extract_reg_toNat, BitVec.ofNat_toNat, BitVec.setWidth_eq, ← regOperand_eq_reg]
  refine rmForms_of_decodeRm (fun f rest hf => ?_) fun g hg => truncates_of_decode hs hp ?_
  · rw [hf, Parsed.andThen_ok] at hdecode
    rw [← rmRegInstr_length (extract b1 7 1) (extract b1 8 1) (extract b2 3 3), hmk]
    exact runs_of_decode hs hp hdecode (hv _ f)
  · rw [hdecode, hg, Parsed.andThen_error]

/-- Settles O19: `88` is `d = 0`, `w = 0`. -/
theorem movRm8R8DecodesAndEmits : Obligations.MovRm8R8DecodesAndEmits :=
  rmRegRule_of_value (by decide) rfl fun _ _ => rfl

/-- Settles O20: `89` is `d = 0`, `w = 1`. -/
theorem movRm16R16DecodesAndEmits : Obligations.MovRm16R16DecodesAndEmits :=
  rmRegRule_of_value (by decide) rfl fun _ _ => rfl

/-- Settles O21: `8A` is `d = 1`, `w = 0`. -/
theorem movR8Rm8DecodesAndEmits : Obligations.MovR8Rm8DecodesAndEmits :=
  rmRegRule_of_value (by decide) rfl fun _ _ => rfl

/-- Settles O22: `8B` is `d = 1`, `w = 1`. -/
theorem movR16Rm16DecodesAndEmits : Obligations.MovR16Rm16DecodesAndEmits :=
  rmRegRule_of_value (by decide) rfl fun _ _ => rfl

end Sys2Proof.Machine
end

section
/-! PROOF. The instructions of IMM_REG (`44_mov_imm_reg.md` R140 to R142): the first byte by its code, what the decoder reads after it at
each width, and the immediate's value. -/

namespace Sys2Proof

/-! ## The first byte (`30_encoding.md` R62) -/

theorem immReg_byte_of_code : ∀ reg : BitVec 3,
    BitVec.ofNat 8 (0xB0 + reg.toNat) = 0b1011#4 ++ 0#1 ++ reg ∧
    BitVec.ofNat 8 (0xB8 + reg.toNat) = 0b1011#4 ++ 1#1 ++ reg := by
  decide

/-! ## The reading side, by the `w` bit -/

theorem decode_immReg (w : BitVec 1) (reg : BitVec 3) (bs : List Byte) :
    decode ((0b1011#4 ++ w ++ reg) :: bs) =
      if w = 0#1 then Parsed.andThen (takeByte .immediate bs) fun v rest => .ok (.movR8Imm8 reg v, rest)
      else Parsed.andThen (takeWord .immediate bs) fun v rest => .ok (.movR16Imm16 reg v, rest) := by
  obtain ⟨hc, hw, hreg⟩ := classify_immReg w reg
  simp only [decode, hc, decodeImmReg, hw, hreg]

/-- `B0` to `B7` take one immediate byte. -/
theorem decode_immReg_byte (reg : BitVec 3) (bs : List Byte) :
    decode (BitVec.ofNat 8 (0xB0 + reg.toNat) :: bs) =
      Parsed.andThen (takeByte .immediate bs) fun v rest => .ok (.movR8Imm8 reg v, rest) := by
  rw [(immReg_byte_of_code reg).1, decode_immReg, if_pos rfl]

/-- `B8` to `BF` take two immediate bytes. -/
theorem decode_immReg_word (reg : BitVec 3) (bs : List Byte) :
    decode (BitVec.ofNat 8 (0xB8 + reg.toNat) :: bs) =
      Parsed.andThen (takeWord .immediate bs) fun v rest => .ok (.movR16Imm16 reg v, rest) := by
  rw [(immReg_byte_of_code reg).2, decode_immReg, if_neg (by decide)]

end Sys2Proof

namespace Sys2Proof.Machine

open Sys2Proof.Claims

/-! ## The immediates against their numbers (`30_encoding.md` R68) -/

theorem byteImmediate_eq_imm8 (v : Byte) : byteImmediate v = imm8 v := by
  rw [byteImmediate, imm8, zext16, BitVec.ofNat_toNat]

theorem wordImmediate_joinBytes (hi lo : Byte) : wordImmediate (joinBytes hi lo) = imm16 lo hi := by
  rw [wordImmediate, imm16, joinBytes_eq_ofNat_pair]

theorem instrValue_movR8Imm8 (code : BitVec 3) (v : Byte) :
    instrValue (.movR8Imm8 code v) = some (movOf (reg .byte code.toNat) (imm8 v)) := by
  rw [← regOperand_eq_reg, ← byteImmediate_eq_imm8]
  rfl

theorem instrValue_movR16Imm16 (code : BitVec 3) (lo hi : Byte) :
    instrValue (.movR16Imm16 code (joinBytes hi lo)) = some (movOf (reg .word code.toNat) (imm16 lo hi)) := by
  rw [← regOperand_eq_reg, ← wordImmediate_joinBytes]
  rfl

/-! ## The two rules -/

/-- A number below 8 is the value of a register code. -/
theorem exists_code_of_lt {n : Nat} (h : n < 8) : ∃ code : BitVec 3, code.toNat = n :=
  ⟨BitVec.ofNatLT n h, BitVec.toNat_ofNatLT n h⟩

/-- A byte read at the cursor is the head of the window. -/
theorem window_of_read {s : State} {b : Byte} (h : s.readByte s.pos = some b) :
    s.window = b :: s.bytesFrom (s.pos + 1) 5 :=
  bytesFrom_of_read h 5

/-- Settles O23: the decoder takes one byte after the first, which is missing or is the immediate. -/
theorem movR8Imm8DecodesAndEmits : Obligations.MovR8Imm8DecodesAndEmits := by
  intro s n hn hs h1
  obtain ⟨code, rfl⟩ := exists_code_of_lt hn
  have hp : s.pos < s.len := (State.readByte_some_iff.1 h1).1
  have hdecode := decode_immReg_byte code (s.bytesFrom (s.pos + 1) 5)
  rw [← window_of_read h1] at hdecode
  refine ⟨fun hcut => truncates_of_decode hs hp ?_, fun v hv => ?_⟩
  · rw [hdecode, bytesFrom_of_none hcut, takeByte_nil, Parsed.andThen_error]
  · rw [bytesFrom_of_read hv, takeByte_cons, Parsed.andThen_ok] at hdecode
    rw [BitVec.ofNat_toNat, BitVec.setWidth_eq]
    exact runs_of_decode hs hp hdecode (instrValue_movR8Imm8 code v)

/-- Settles O24: the decoder takes two bytes after the first; they are fewer than two, or the immediate with its low byte first. -/
theorem movR16Imm16DecodesAndEmits : Obligations.MovR16Imm16DecodesAndEmits := by
  intro s n hn hs h1
  obtain ⟨code, rfl⟩ := exists_code_of_lt hn
  have hp : s.pos < s.len := (State.readByte_some_iff.1 h1).1
  have hdecode := decode_immReg_word code (s.bytesFrom (s.pos + 1) 5)
  rw [← window_of_read h1] at hdecode
  refine ⟨fun hcut => truncates_of_decode hs hp ?_, fun lo hi hlo hhi => ?_⟩
  · rw [hdecode, takeWord_eq_error.2 ⟨bytesFrom_length_lt_two_of_none hcut 5, rfl⟩, Parsed.andThen_error]
  · rw [bytesFrom_of_two_reads hlo hhi, takeWord_cons, Parsed.andThen_ok] at hdecode
    rw [BitVec.ofNat_toNat, BitVec.setWidth_eq, ← joinBytes_eq_ofNat_pair]
    exact runs_of_decode hs hp hdecode (instrValue_movR16Imm16 code lo hi)

end Sys2Proof.Machine
end

section
/-! PROOF. The accumulator instructions, `A0` to `A3` (`46_mov_acc_mem.md` R160 to R163): what the decoder reads after each first byte,
and the rule they share. -/

namespace Sys2Proof

/-! ## The reading side, by the `w` bit -/

theorem decode_memAcc {b1 : Byte} (hc : classify b1 = some .memAcc) (bs : List Byte) :
    decode (b1 :: bs) = Parsed.andThen (takeWord .address bs) fun addr rest =>
      .ok (if extract b1 8 1 = 0#1 then .movAlAddr addr else .movAxAddr addr, rest) := by
  simp only [decode, hc, decodeMemAcc]

theorem decode_accMem {b1 : Byte} (hc : classify b1 = some .accMem) (bs : List Byte) :
    decode (b1 :: bs) = Parsed.andThen (takeWord .address bs) fun addr rest =>
      .ok (if extract b1 8 1 = 0#1 then .movAddrAl addr else .movAddrAx addr, rest) := by
  simp only [decode, hc, decodeAccMem]

end Sys2Proof

namespace Sys2Proof.Machine

open Sys2Proof.Claims

/-! ## The rule that the four instructions share -/

/-- The accumulator rule, for a first byte after which the decoder reads an address and wraps it in `mk`: the address bytes are fewer
than two, or the address with its low byte first (`20_memory.md` R44). -/
theorem accumulatorRule_of_decode {b1 : Byte} {mk : Word16 → Instr} {value : Operand → Instruction}
    (hdecode : ∀ bs, decode (b1 :: bs) = Parsed.andThen (takeWord .address bs) fun addr rest => .ok (mk addr, rest))
    (hlen : ∀ addr, (mk addr).length = 3) (hv : ∀ addr, instrValue (mk addr) = some (value (directOperand addr))) :
    AccumulatorRule b1 mk value := by
  intro s hs h1
  have hp : s.pos < s.len := (State.readByte_some_iff.1 h1).1
  have hwindow := hdecode (s.bytesFrom (s.pos + 1) 5)
  rw [← window_of_read h1] at hwindow
  refine ⟨fun hcut => truncates_of_decode hs hp ?_, fun lo hi hlo hhi => ?_⟩
  · rw [hwindow, takeWord_eq_error.2 ⟨bytesFrom_length_lt_two_of_none hcut 5, rfl⟩, Parsed.andThen_error]
  · rw [bytesFrom_of_two_reads hlo hhi, takeWord_cons, Parsed.andThen_ok] at hwindow
    rw [← joinBytes_eq_ofNat_pair, ← directOperand_joinBytes, ← hlen (joinBytes hi lo)]
    exact runs_of_decode hs hp hwindow (hv _)

/-- Settles O27: `A0` is memory to accumulator with `w = 0`. -/
theorem movAlAddrDecodesAndEmits : Obligations.MovAlAddrDecodesAndEmits :=
  accumulatorRule_of_decode (decode_memAcc (by decide)) (fun _ => rfl) fun _ => rfl

/-- Settles O28: `A1` is memory to accumulator with `w = 1`. -/
theorem movAxAddrDecodesAndEmits : Obligations.MovAxAddrDecodesAndEmits :=
  accumulatorRule_of_decode (decode_memAcc (by decide)) (fun _ => rfl) fun _ => rfl

/-- Settles O29: `A2` is accumulator to memory with `w = 0`. -/
theorem movAddrAlDecodesAndEmits : Obligations.MovAddrAlDecodesAndEmits :=
  accumulatorRule_of_decode (decode_accMem (by decide)) (fun _ => rfl) fun _ => rfl

/-- Settles O30: `A3` is accumulator to memory with `w = 1`. -/
theorem movAddrAxDecodesAndEmits : Obligations.MovAddrAxDecodesAndEmits :=
  accumulatorRule_of_decode (decode_accMem (by decide)) (fun _ => rfl) fun _ => rfl

end Sys2Proof.Machine
end

section
/-! PROOF. The canonical text of an instruction (`47_driver_and_output.md` R183 to R187): the register names. -/

namespace Sys2Proof.Machine

/-- Settles O50: both columns of the register table are closed lists, so each side computes to the same eight strings, name by name
in the order of the codes. -/
theorem registersRenderAsTheirNames : Obligations.RegistersRenderAsTheirNames :=
  ⟨rfl, rfl⟩

end Sys2Proof.Machine
end

section
/-! PROOF. Encoding and decoding are inverse to each other (`30_encoding.md` R60 to R68, R76): the reading side of each format on the
bytes of its encodings, and the lengths of R70. -/

namespace Sys2Proof

open Sys2Proof.Claims

/-! ## The decoder on an encoding -/

/-- The first byte of RM_REG, by its fields. -/
theorem classify_rmReg : ∀ d w : BitVec 1,
    classify (0b100010#6 ++ d ++ w) = some .rmReg ∧
    extract (0b100010#6 ++ d ++ w) 7 1 = d ∧ extract (0b100010#6 ++ d ++ w) 8 1 = w := by
  decide

theorem decode_encode_rmRegInstr (d w : BitVec 1) (reg : BitVec 3) {f : RmField} (h : f.wf = true) (rest : List Byte) :
    decode (encode (rmRegInstr d w reg f) ++ rest) = .ok (rmRegInstr d w reg f, rest) := by
  obtain ⟨hc, hd, hw⟩ := classify_rmReg d w
  rw [encode_rmRegInstr, List.cons_append, List.cons_append, decode_rmReg hc]
  simp [hd, hw, decodeRm_of_form h]

theorem encode_movR8Imm8 (reg : BitVec 3) (v : Byte) :
    encode (.movR8Imm8 reg v) = [BitVec.ofNat 8 (0xB0 + reg.toNat), v] := by
  rw [(immReg_byte_of_code reg).1, encode]
  rfl

theorem encode_movR16Imm16 (reg : BitVec 3) (v : Word16) :
    encode (.movR16Imm16 reg v) = [BitVec.ofNat 8 (0xB8 + reg.toNat), lowByte v, highByte v] := by
  rw [(immReg_byte_of_code reg).2, encode]
  rfl

/-- The two bytes of a word read back as the word. -/
theorem andThen_takeWord_of_word {β : Type} (g : Stage) (w : Word16) (rest : List Byte) (k : Word16 → List Byte → Parsed β) :
    Parsed.andThen (takeWord g (lowByte w :: highByte w :: rest)) k = k w rest := by
  rw [takeWord_cons, joinBytes_high_low, Parsed.andThen_ok]

/-- The reading side of a first byte that no pattern matches. -/
theorem decode_of_classify_none {b1 : Byte} (hc : classify b1 = none) (bs : List Byte) :
    decode (b1 :: bs) = .ok (.unsupportedFirstByte b1, bs) := by
  simp only [decode, hc]

/-- The immediate of an IMM_RM instruction, by the first byte's `w` bit (`45_mov_imm_rm.md` R150). -/
def readImmediate (b1 : Byte) (f : RmField) (bs : List Byte) : Parsed Instr :=
  if extract b1 8 1 = 0#1 then Parsed.andThen (takeByte .immediate bs) fun v rest => .ok (.movRm8Imm8 f v, rest)
  else Parsed.andThen (takeWord .immediate bs) fun v rest => .ok (.movRm16Imm16 f v, rest)

theorem readImmediate_byte (f : RmField) (bs : List Byte) :
    readImmediate 0xC6 f bs = Parsed.andThen (takeByte .immediate bs) fun v rest => .ok (.movRm8Imm8 f v, rest) := rfl

theorem readImmediate_word (f : RmField) (bs : List Byte) :
    readImmediate 0xC7 f bs = Parsed.andThen (takeWord .immediate bs) fun v rest => .ok (.movRm16Imm16 f v, rest) := rfl

/-- The reading side of IMM_RM on a list that has its addressing byte. -/
theorem decode_immRm {b1 : Byte} (hc : classify b1 = some .immRm) (b2 : Byte) (bs : List Byte) :
    decode (b1 :: b2 :: bs) =
      if extract b2 3 3 ≠ 0#3 then .error (.invalidFieldCombination .modrm)
      else Parsed.andThen (decodeRm (extract b2 1 2) (extract b2 6 3) bs) (readImmediate b1) := by
  simp only [decode, hc, decodeImmRm, takeByte_cons, Parsed.andThen_ok]
  rfl

theorem decode_immRm_cut {b1 : Byte} (hc : classify b1 = some .immRm) :
    decode [b1] = .error (.truncatedStream .modrm) := by
  simp [decode, hc, decodeImmRm]

/-- IMM_RM with the addressing byte of a form. -/
theorem decode_immRm_addressingByte {b1 : Byte} (hc : classify b1 = some .immRm) (f : RmField) (bs : List Byte) :
    decode (b1 :: f.addressingByte 0 :: bs) = Parsed.andThen (decodeRm f.mod f.rmCode bs) (readImmediate b1) := by
  simp [decode_immRm hc]

/-- IMM_RM with a form of its operand: what is left is the immediate. -/
theorem decode_immRm_of_form {b1 : Byte} (hc : classify b1 = some .immRm) {f : RmField} (h : f.wf = true)
    (bs : List Byte) : decode (b1 :: f.addressingByte 0 :: (f.tail ++ bs)) = readImmediate b1 f bs := by
  rw [decode_immRm_addressingByte hc, decodeRm_of_form h, Parsed.andThen_ok]

theorem decode_encode {i : Instr} (h : i.wf = true) (rest : List Byte) : decode (encode i ++ rest) = .ok (i, rest) := by
  cases i with
  | movRm8R8 reg f => exact decode_encode_rmRegInstr 0 0 reg h rest
  | movRm16R16 reg f => exact decode_encode_rmRegInstr 0 1 reg h rest
  | movR8Rm8 reg f => exact decode_encode_rmRegInstr 1 0 reg h rest
  | movR16Rm16 reg f => exact decode_encode_rmRegInstr 1 1 reg h rest
  | movR8Imm8 reg v => simp [encode_movR8Imm8, decode_immReg_byte]
  | movR16Imm16 reg v => simp [encode_movR16Imm16, decode_immReg_word]
  | movRm8Imm8 f v =>
    rw [encode, List.cons_append, List.cons_append, List.append_assoc, decode_immRm_of_form (by decide) h,
      readImmediate_byte]
    rfl
  | movRm16Imm16 f v =>
    rw [encode, List.cons_append, List.cons_append, List.append_assoc, decode_immRm_of_form (by decide) h,
      readImmediate_word]
    exact andThen_takeWord_of_word _ v rest _
  | movAlAddr a => exact (decode_memAcc (b1 := 0xA0) (by decide) _).trans (andThen_takeWord_of_word _ a rest _)
  | movAxAddr a => exact (decode_memAcc (b1 := 0xA1) (by decide) _).trans (andThen_takeWord_of_word _ a rest _)
  | movAddrAl a => exact (decode_accMem (b1 := 0xA2) (by decide) _).trans (andThen_takeWord_of_word _ a rest _)
  | movAddrAx a => exact (decode_accMem (b1 := 0xA3) (by decide) _).trans (andThen_takeWord_of_word _ a rest _)
  | unsupportedFirstByte b => exact decode_of_classify_none ((classify_eq_none_iff b).2 h) rest

/-- Settles O8: format by format, the decoder reads back the fields that the encoder wrote. -/
theorem decodeOfEncodeIsTheInstruction : Obligations.DecodeOfEncodeIsTheInstruction :=
  fun _ rest h => decode_encode h rest

/-- Settles O9: `decode_eq_ok`, which goes through the five formats. -/
theorem encodeOfDecodeIsTheBytes : Obligations.EncodeOfDecodeIsTheBytes :=
  fun _ _ _ h => decode_eq_ok h

/-- Settles O11: each decode is of a closed list of bytes. -/
theorem writtenOutBytesDecode : Obligations.WrittenOutBytesDecode :=
  ⟨rfl, rfl, rfl, rfl, rfl, rfl, rfl, rfl, rfl, rfl, rfl⟩

/-! ## The lengths (`30_encoding.md` R70) -/

theorem RmField.tail_length_le (f : RmField) : f.tail.length ≤ 2 := by
  cases f <;> simp [RmField.tail]

theorem length_movRm8Imm8 (f : RmField) (v : Byte) : (Instr.movRm8Imm8 f v).length = 3 + f.tail.length := by
  simp only [Instr.length, encode, List.length_cons, List.length_append, List.length_nil]
  omega

theorem length_movRm16Imm16 (f : RmField) (v : Word16) : (Instr.movRm16Imm16 f v).length = 4 + f.tail.length := by
  simp only [Instr.length, encode, List.length_cons, List.length_append, List.length_nil]
  omega

theorem rmRegInstr_length_bounds (d w : BitVec 1) (reg : BitVec 3) (f : RmField) :
    2 ≤ (rmRegInstr d w reg f).length ∧ (rmRegInstr d w reg f).length ≤ 6 := by
  have := f.tail_length_le
  rw [rmRegInstr_length]
  omega

/-- Every one of the twelve has 2 to 6 bytes. -/
theorem length_bounds {i : Instr} (h : isMov i = true) : 2 ≤ i.length ∧ i.length ≤ 6 := by
  cases i with
  | movRm8R8 reg f => exact rmRegInstr_length_bounds 0 0 reg f
  | movRm16R16 reg f => exact rmRegInstr_length_bounds 0 1 reg f
  | movR8Rm8 reg f => exact rmRegInstr_length_bounds 1 0 reg f
  | movR16Rm16 reg f => exact rmRegInstr_length_bounds 1 1 reg f
  | movRm8Imm8 f v => have := f.tail_length_le; rw [length_movRm8Imm8]; omega
  | movRm16Imm16 f v => have := f.tail_length_le; rw [length_movRm16Imm16]; omega
  | unsupportedFirstByte b => cases h
  | _ => simp [Instr.length, encode]

theorem eq_unsupportedFirstByte_of_not_isMov {i : Instr} (h : isMov i = false) : ∃ b, i = .unsupportedFirstByte b := by
  cases i with
  | unsupportedFirstByte b => exact ⟨b, rfl⟩
  | _ => cases h

/-- An encoding is a byte 1 and at most five more. -/
theorem length_pos_le (i : Instr) : 0 < i.length ∧ i.length ≤ Config.maxLength := by
  cases h : isMov i with
  | true =>
    obtain ⟨hmin, hmax⟩ := length_bounds h
    exact ⟨by omega, hmax⟩
  | false =>
    obtain ⟨b, rfl⟩ := eq_unsupportedFirstByte_of_not_isMov h
    exact ⟨Nat.one_pos, (by decide : 1 ≤ Config.maxLength)⟩

/-- Settles O10: the table row by row, and the bounds from it. -/
theorem instructionLengthTable : Obligations.InstructionLengthTable :=
  ⟨fun r f => ⟨rmRegInstr_length 0 0 r f, rmRegInstr_length 0 1 r f, rmRegInstr_length 1 0 r f, rmRegInstr_length 1 1 r f⟩,
    fun _ _ => rfl, fun _ _ => rfl, length_movRm8Imm8, length_movRm16Imm16, fun _ => ⟨rfl, rfl, rfl, rfl⟩,
    fun _ => rfl, fun _ => rfl, fun _ => rfl, fun _ _ => rfl, fun _ _ => rfl, fun _ => length_bounds⟩

end Sys2Proof
end

section
/-! PROOF. `decode_one` as the spec writes it (a read index into the stream) and the decoder (a list of bytes) go through the same
reads: a relation between the two, one lemma for each routine, and the driver's step from it (`47_driver_and_output.md` R171, R176). -/

namespace Sys2Proof.Machine

open Sys2Proof.Claims

/-! ## The relation -/

/-- The bytes that a decode begun at `pos` has before it at the read index `p`. -/
def State.ahead (s : State) (pos p : Nat) : List Byte := s.bytesFrom p (pos + Config.maxLength - p)

/-- The list read `q` and the stream read `x` of a decode begun at `pos` have the same outcome: results that `R` relates, with the read
index where the list left off and room for `m` more bytes; or the same error. -/
def Agrees {α γ : Type} (s : State) (pos m : Nat) (R : α → Nat → γ → Prop) (q : Parsed α) (x : Except ErrorRecord γ) : Prop :=
  match q with
  | .ok (a, rest) => ∃ p y, rest = s.ahead pos p ∧ p ≤ s.len ∧ p + m ≤ pos + Config.maxLength ∧ x = .ok y ∧ R a p y
  | .error .noByte => False
  | .error (.truncatedStream g) => x = .error (s.errorAt pos .truncatedStream g)
  | .error (.invalidFieldCombination g) => x = .error (s.errorAt pos .invalidFieldCombination g)

/-- The result of a read with an index: the value `f` of what the list holds, and the index. -/
def Reads {α β : Type} (f : α → β) (a : α) (p : Nat) (y : β × Nat) : Prop := y = (f a, p)

theorem agrees_ok {α γ : Type} {s : State} {pos m p : Nat} {R : α → Nat → γ → Prop} {a : α} {y : γ} (hp : p ≤ s.len)
    (hm : p + m ≤ pos + Config.maxLength) (hR : R a p y) : Agrees s pos m R (.ok (a, s.ahead pos p)) (.ok y) :=
  ⟨p, y, rfl, hp, hm, rfl, hR⟩

/-- Two reads one after the other. -/
theorem Agrees.bind {α β γ δ : Type} {s : State} {pos m m' : Nat} {f : α → γ} {R' : β → Nat → δ → Prop} {q : Parsed α}
    {x : Except ErrorRecord (γ × Nat)} {k : α → List Byte → Parsed β} {k' : γ × Nat → Except ErrorRecord δ}
    (h : Agrees s pos m (Reads f) q x)
    (hk : ∀ a p, p ≤ s.len → p + m ≤ pos + Config.maxLength → Agrees s pos m' R' (k a (s.ahead pos p)) (k' (f a, p))) :
    Agrees s pos m' R' (Parsed.andThen q k) (x >>= k') := by
  rcases q with (_ | g | g) | ⟨a, rest⟩
  · exact h
  · obtain rfl : x = _ := h
    rfl
  · obtain rfl : x = _ := h
    rfl
  · obtain ⟨p, _, rfl, hp, hm, rfl, rfl⟩ := h
    exact hk a p hp hm

/-! ## The reading primitives -/

theorem ahead_of_lt {s : State} {pos p : Nat} (hp : p < s.len) (hm : p + 1 ≤ pos + Config.maxLength) :
    s.ahead pos p = s.streamByte p :: s.ahead pos (p + 1) := by
  rw [State.ahead, State.ahead, show pos + Config.maxLength - p = (pos + Config.maxLength - (p + 1)) + 1 by omega,
    State.bytesFrom, if_pos hp, State.streamByte]

theorem ahead_length (s : State) (pos p : Nat) :
    (s.ahead pos p).length = min (pos + Config.maxLength - p) (s.len - p) :=
  s.bytesFrom_length p _

theorem takeByte_agrees {s : State} {pos p m : Nat} (g : Stage) (hp : p ≤ s.len) (hm : p + (m + 1) ≤ pos + Config.maxLength) :
    Agrees s pos m (Reads id) (takeByte g (s.ahead pos p)) (takeOneAt s pos p g) := by
  by_cases h : p < s.len
  · rw [ahead_of_lt h (by omega), takeByte_cons, takeOneAt, if_neg (by omega)]
    exact agrees_ok h (by omega) rfl
  · have hnil : s.ahead pos p = [] := List.eq_nil_of_length_eq_zero (by rw [ahead_length]; omega)
    rw [hnil, takeByte_nil, takeOneAt, if_pos (by omega)]
    rfl

theorem takeWord_agrees {s : State} {pos p m : Nat} (g : Stage) (hp : p ≤ s.len) (hm : p + (m + 2) ≤ pos + Config.maxLength) :
    Agrees s pos m (Reads id) (takeWord g (s.ahead pos p)) (takeTwoAt s pos p g) := by
  by_cases h : p + 1 < s.len
  · rw [ahead_of_lt (by omega) (by omega), ahead_of_lt h (by omega), takeWord_cons, takeTwoAt, if_neg (by omega)]
    exact agrees_ok h (by omega) (by rw [Reads, id, joinBytes_eq_ofNat_pair, pair])
  · rw [takeWord_eq_error.2 ⟨by rw [ahead_length]; omega, rfl⟩, takeTwoAt, if_pos (by omega)]
    rfl

/-! ## The routines -/

/-- The two-argument table, its test as the operand decoder makes it. -/
theorem eaLookup_eq (mod : BitVec 2) (rm : BitVec 3) :
    eaLookup mod rm = if mod = 0 ∧ rm = 6 then .directAddress else .components (eaComponents rm) := by
  simp [eaLookup, isDirectAddress]

theorem decodeRm_agrees {s : State} {pos p : Nat} (mod : BitVec 2) (rm : BitVec 3) (width : Width) (m : Nat) (hp : p ≤ s.len)
    (hm : p + (m + 2) ≤ pos + Config.maxLength) :
    Agrees s pos m (Reads (rmOperand width)) (decodeRm mod rm (s.ahead pos p)) (rmOperandAt s pos p mod rm width) := by
  rw [decodeRm, rmOperandAt, eaLookup_eq]
  by_cases h3 : mod = 3
  · rw [if_pos h3, if_pos h3]
    exact agrees_ok hp (by omega) rfl
  rw [if_neg h3, if_neg h3]
  by_cases h06 : mod = 0 ∧ rm = 6
  · rw [if_pos h06, if_pos h06]
    exact (takeWord_agrees .address hp hm).bind fun a p' hp' hm' => agrees_ok hp' hm' rfl
  rw [if_neg h06, if_neg h06]
  by_cases h0 : mod = 0
  · simp only [if_pos h0]
    exact agrees_ok hp (by omega) rfl
  by_cases h1 : mod = 1
  · simp only [if_neg h0, if_pos h1]
    exact (takeByte_agrees .displacement hp (by omega)).bind fun a p' hp' hm' => agrees_ok hp' hm' rfl
  · simp only [if_neg h0, if_neg h1]
    exact (takeWord_agrees .displacement hp hm).bind fun a p' hp' hm' => agrees_ok hp' hm' rfl

/-- What a routine of `decode_one` returns for an instruction: its value and the bytes read. -/
def Returns (pos : Nat) (i : Instr) (p : Nat) (y : Instruction × Nat) : Prop :=
  instrValue i = some y.1 ∧ y.2 = p - pos

theorem immediateAt_byte (s : State) (pos p : Nat) :
    immediateAt s pos p 0 = takeOneAt s pos p .immediate >>= fun y => .ok (byteImmediate y.1, y.2) := rfl

theorem immediateAt_word (s : State) (pos p : Nat) :
    immediateAt s pos p 1 = takeTwoAt s pos p .immediate >>= fun y => .ok (wordImmediate y.1, y.2) := rfl

/-- The immediate, at the width that `w` selects: it completes an instruction with the destination `dst`. -/
theorem immediate_agrees {s : State} {pos p : Nat} {w : BitVec 1} {mk8 : Byte → Instr} {mk16 : Word16 → Instr} {dst : Operand}
    (hp : p ≤ s.len) (hm : p + 2 ≤ pos + Config.maxLength)
    (h8 : w = 0 → ∀ v, instrValue (mk8 v) = some (mov dst (byteImmediate v)))
    (h16 : w = 1 → ∀ v, instrValue (mk16 v) = some (mov dst (wordImmediate v))) :
    Agrees s pos 0 (Returns pos)
      (if w = 0#1 then Parsed.andThen (takeByte .immediate (s.ahead pos p)) fun v rest => .ok (mk8 v, rest)
        else Parsed.andThen (takeWord .immediate (s.ahead pos p)) fun v rest => .ok (mk16 v, rest))
      (immediateAt s pos p w >>= fun y => .ok (mov dst y.1, y.2 - pos)) := by
  obtain rfl | rfl := BitVec.eq_zero_or_eq_one w
  · rw [if_pos rfl, ← BitVec.ofNat_eq_ofNat, immediateAt_byte, bind_assoc]
    exact (takeByte_agrees (m := 0) .immediate hp (by omega)).bind fun v _ hp hm => agrees_ok hp hm ⟨h8 rfl v, rfl⟩
  · rw [if_neg (by decide), ← BitVec.ofNat_eq_ofNat, immediateAt_word, bind_assoc]
    exact (takeWord_agrees (m := 0) .immediate hp (by omega)).bind fun v _ hp hm => agrees_ok hp hm ⟨h16 rfl v, rfl⟩

theorem decodeImmReg_agrees {s : State} {pos : Nat} (b1 : Byte) (hp : pos < s.len) :
    Agrees s pos 0 (Returns pos) (decodeImmReg b1 (s.ahead pos (pos + 1))) (decodeImmRegAt s pos b1) :=
  immediate_agrees (dst := regOperand (widthOf (extract b1 5 1)) (extract b1 6 3)) hp (by simp [Config.maxLength])
    (fun hw _ => by rw [hw]; rfl) fun hw _ => by rw [hw]; rfl

theorem instrValue_rmRegInstr (d w : BitVec 1) (reg : BitVec 3) (f : RmField) :
    instrValue (rmRegInstr d w reg f) = some
      (if d = 1 then mov (regOperand (widthOf w) reg) (rmOperand (widthOf w) f)
        else mov (rmOperand (widthOf w) f) (regOperand (widthOf w) reg)) := by
  obtain rfl | rfl := BitVec.eq_zero_or_eq_one d <;> obtain rfl | rfl := BitVec.eq_zero_or_eq_one w <;> rfl

theorem decodeRmReg_agrees {s : State} {pos : Nat} (b1 : Byte) (hp : pos < s.len) :
    Agrees s pos 0 (Returns pos) (decodeRmReg b1 (s.ahead pos (pos + 1))) (decodeRmRegAt s pos b1) :=
  (takeByte_agrees (m := 4) .modrm hp (by simp [Config.maxLength])).bind fun _ _ hp hm =>
    (decodeRm_agrees _ _ _ 0 hp (by omega)).bind fun _ _ hp hm =>
      agrees_ok hp hm ⟨instrValue_rmRegInstr _ _ _ _, rfl⟩

theorem decodeImmRm_agrees {s : State} {pos : Nat} (b1 : Byte) (hp : pos < s.len) :
    Agrees s pos 0 (Returns pos) (decodeImmRm b1 (s.ahead pos (pos + 1))) (decodeImmRmAt s pos b1) := by
  refine (takeByte_agrees (m := 4) .modrm hp (by simp [Config.maxLength])).bind fun b2 p hp hm => ?_
  by_cases hreg : extract b2 3 3 = 0#3
  · simp only [id, hreg, ne_eq, not_true_eq_false, if_false]
    exact (decodeRm_agrees _ _ _ 2 hp hm).bind fun f p hp hm =>
      immediate_agrees hp hm (fun hw _ => by rw [hw]; rfl) fun hw _ => by rw [hw]; rfl
  · simp only [id, ne_eq, hreg, not_false_eq_true, if_true]
    rfl

theorem instrValue_memAcc (w : BitVec 1) (a : Word16) :
    instrValue (if w = 0#1 then .movAlAddr a else .movAxAddr a) = some (mov (accumulator (widthOf w)) (directOperand a)) := by
  obtain rfl | rfl := BitVec.eq_zero_or_eq_one w <;> rfl

theorem instrValue_accMem (w : BitVec 1) (a : Word16) :
    instrValue (if w = 0#1 then .movAddrAl a else .movAddrAx a) = some (mov (directOperand a) (accumulator (widthOf w))) := by
  obtain rfl | rfl := BitVec.eq_zero_or_eq_one w <;> rfl

theorem decodeMemAcc_agrees {s : State} {pos : Nat} (b1 : Byte) (hp : pos < s.len) :
    Agrees s pos 0 (Returns pos) (decodeMemAcc b1 (s.ahead pos (pos + 1))) (decodeMemAccAt s pos b1) :=
  (takeWord_agrees .address hp (by simp [Config.maxLength])).bind fun _ _ hp hm =>
    agrees_ok hp hm ⟨instrValue_memAcc _ _, rfl⟩

theorem decodeAccMem_agrees {s : State} {pos : Nat} (b1 : Byte) (hp : pos < s.len) :
    Agrees s pos 0 (Returns pos) (decodeAccMem b1 (s.ahead pos (pos + 1))) (decodeAccMemAt s pos b1) :=
  (takeWord_agrees .address hp (by simp [Config.maxLength])).bind fun _ _ hp hm =>
    agrees_ok hp hm ⟨instrValue_accMem _ _, rfl⟩

/-- The bytes of a decode at `pos` are byte 1 and those ahead of it. -/
theorem bytesFrom_eq_cons_ahead {s : State} {pos : Nat} (hp : pos < s.len) :
    s.bytesFrom pos Config.maxLength = s.streamByte pos :: s.ahead pos (pos + 1) := by
  rw [← ahead_of_lt hp (by simp [Config.maxLength]), State.ahead, Nat.add_sub_cancel_left]

/-- `decode_one` and the decoder agree wherever byte 1 is classified. -/
theorem decode_agrees {s : State} {pos : Nat} (hp : pos < s.len) (hc : classify (s.streamByte pos) ≠ none) :
    Agrees s pos 0 (Returns pos) (decode (s.bytesFrom pos Config.maxLength)) (decodeOne s pos) := by
  rw [bytesFrom_eq_cons_ahead hp, decode, decodeOne]
  rcases hf : classify (s.streamByte pos) with _ | (_ | _ | _ | _ | _)
  · exact absurd hf hc
  · exact decodeImmReg_agrees _ hp
  · exact decodeRmReg_agrees _ hp
  · exact decodeImmRm_agrees _ hp
  · exact decodeMemAcc_agrees _ hp
  · exact decodeAccMem_agrees _ hp

/-! ## `decode_one` by the decoder's answer -/

/-- The read index where an accepted instruction ends. -/
theorem length_of_rest_eq_ahead {s : State} {pos p : Nat} {i : Instr} (hpos : pos < s.len) (hp : p ≤ s.len)
    (hm : p ≤ pos + Config.maxLength) (hd : decode (s.bytesFrom pos Config.maxLength) = .ok (i, s.ahead pos p)) :
    p - pos = i.length := by
  have hlen := congrArg List.length (decode_eq_ok hd).2
  rw [List.length_append, ahead_length, State.bytesFrom_length, ← Instr.length] at hlen
  omega

/-- `decode_one` in every case of the decoder's answer: a value with its encoded length, a byte 1 that is no instruction, or the error
that the decoder names. -/
theorem decodeOne_cases {s : State} {pos : Nat} (hp : pos < s.len) :
    (∃ i rest v, decode (s.bytesFrom pos Config.maxLength) = .ok (i, rest) ∧ instrValue i = some v ∧
      decodeOne s pos = .ok (v, i.length)) ∨
    (∃ rest, classify (s.streamByte pos) = none ∧
      decode (s.bytesFrom pos Config.maxLength) = .ok (.unsupportedFirstByte (s.streamByte pos), rest) ∧
      decodeOne s pos = .error (s.errorAt pos .unsupportedOpcode .classify)) ∨
    (∃ g, decode (s.bytesFrom pos Config.maxLength) = .error (.truncatedStream g) ∧
      decodeOne s pos = .error (s.errorAt pos .truncatedStream g)) ∨
    (∃ g, decode (s.bytesFrom pos Config.maxLength) = .error (.invalidFieldCombination g) ∧
      decodeOne s pos = .error (s.errorAt pos .invalidFieldCombination g)) := by
  by_cases hc : classify (s.streamByte pos) = none
  · refine .inr (.inl ⟨s.ahead pos (pos + 1), hc, ?_, ?_⟩)
    · rw [bytesFrom_eq_cons_ahead hp, decode_of_classify_none hc]
    · simp only [decodeOne, hc]
  have h := decode_agrees hp hc
  rcases hd : decode (s.bytesFrom pos Config.maxLength) with (_ | g | g) | ⟨i, rest⟩ <;> rw [hd] at h
  · exact h.elim
  · exact .inr (.inr (.inl ⟨g, rfl, h⟩))
  · exact .inr (.inr (.inr ⟨g, rfl, h⟩))
  · obtain ⟨p, ⟨v, n⟩, rfl, hpl, hm, hx, hv, hn⟩ := h
    obtain rfl : n = i.length := hn.trans (length_of_rest_eq_ahead hp hpl hm hd)
    exact .inl ⟨i, _, v, rfl, hv, hx⟩

theorem decodeOne_eq_ok {s : State} {pos n : Nat} {v : Instruction} (hp : pos < s.len) (h : decodeOne s pos = .ok (v, n)) :
    ∃ i rest, decode (s.bytesFrom pos Config.maxLength) = .ok (i, rest) ∧ instrValue i = some v ∧ n = i.length := by
  obtain ⟨i, rest, v', hd, hv, he⟩ | ⟨_, _, _, he⟩ | ⟨_, _, he⟩ | ⟨_, _, he⟩ := decodeOne_cases hp <;> rw [he] at h
  · obtain ⟨rfl, rfl⟩ : v' = v ∧ i.length = n := by simpa using h
    exact ⟨i, rest, hd, hv, rfl⟩
  all_goals cases h

/-! ## The driver's step -/

theorem driverStep_of_not_reading {s : State} (h : s.st ≠ .reading) : driverStep s = s := by
  unfold driverStep
  cases hs : s.st with
  | reading => exact absurd hs h
  | done => rfl
  | failed => rfl

theorem driverStep_at_end {s : State} (hs : s.st = .reading) (hp : s.pos = s.len) : driverStep s = s.setDone := by
  simp only [driverStep, hs, if_pos hp]
  rfl

theorem driverStep_of_ok {s : State} {v : Instruction} {n : Nat} (hs : s.st = .reading) (hp : s.pos ≠ s.len)
    (h : decodeOne s s.pos = .ok (v, n)) : driverStep s = s.emit n v := by
  simp only [driverStep, State.emit, hs, if_neg hp, h]

theorem driverStep_of_error {s : State} {e : ErrorRecord} (hs : s.st = .reading) (hp : s.pos ≠ s.len)
    (h : decodeOne s s.pos = .error e) : driverStep s = s.setFailed e := by
  simp only [driverStep, hs, if_neg hp, h]
  rfl

/-- Inside the stream the step is the driver's. -/
theorem step_eq_driverStep {s : State} (h : s.pos ≤ s.len) : step s = .next (driverStep s) := by
  by_cases hs : s.st = .reading
  · by_cases hend : s.pos = s.len
    · rw [step_at_end hs hend, driverStep_at_end hs hend]
    have hp : s.pos < s.len := lt_of_le_of_ne h hend
    obtain ⟨i, rest, v, hd, hv, he⟩ | ⟨rest, -, hd, he⟩ | ⟨g, hd, he⟩ | ⟨g, hd, he⟩ := decodeOne_cases hp
    · rw [step_of_decode hs hend hd, exec_of_decode_window hp hd hv, driverStep_of_ok hs hend he]
    · rw [step_of_decode hs hend hd, exec_eq_raise rfl, State.raise_of_lt hp, driverStep_of_error hs hend he]
      rfl
    · rw [step_of_truncated hs hend hd, State.raise_of_lt hp, driverStep_of_error hs hend he]
      rfl
    · rw [step_of_invalid hs hend hd, State.raise_of_lt hp, driverStep_of_error hs hend he]
      rfl
  · rw [step_of_not_reading hs, driverStep_of_not_reading hs]

/-- Settles O15: `decode_one` and the decoder agree on the bytes at the cursor. -/
theorem stepIsTheDriverStep : Obligations.StepIsTheDriverStep :=
  fun _ h => step_eq_driverStep h

end Sys2Proof.Machine
end

section
/-! PROOF. What a step and a meaning change and what they leave: the cases of a step in terms of `decode_one`, the frame of every
instruction, and the values and errors of `decode_one` (`47_driver_and_output.md` R170, R174, R176 to R179, `60_exceptions.md` R205). -/

namespace Sys2Proof.Machine

open Sys2Proof.Claims

/-! ## The cases of a step -/

/-- A step in Reading, not at the end, that gives a next state stands inside the stream. -/
theorem lt_len_of_step_next {s t : State} (h : step s = .next t) (hs : s.st = .reading) (hne : s.pos ≠ s.len) :
    s.pos < s.len := by
  obtain ⟨hs', -⟩ | ⟨-, hend, -⟩ | ⟨-, -, i, rest, -, he⟩ | ⟨-, -, g, -, he⟩ | ⟨-, -, g, -, he⟩ := step_next h
  · exact absurd hs hs'
  · exact absurd hend hne
  · exact (exec_next he).1
  · exact (State.raise_next he).1
  · exact (State.raise_next he).1

/-- Everything a step can do, in terms of `decode_one`: stay, end the run, emit what it decodes, or take its error. -/
theorem step_next_cases {s t : State} (h : step s = .next t) :
    (s.st ≠ .reading ∧ t = s) ∨
    (s.st = .reading ∧ s.pos = s.len ∧ t = s.setDone) ∨
    (s.st = .reading ∧ s.pos < s.len ∧ ∃ v n, decodeOne s s.pos = .ok (v, n) ∧ t = s.emit n v) ∨
    (s.st = .reading ∧ s.pos < s.len ∧ ∃ e, decodeOne s s.pos = .error e ∧ t = s.setFailed e) := by
  by_cases hs : s.st = .reading
  · by_cases hend : s.pos = s.len
    · rw [step_at_end hs hend] at h
      injection h with h
      exact .inr (.inl ⟨hs, hend, h.symm⟩)
    have hp := lt_len_of_step_next h hs hend
    rw [step_eq_driverStep hp.le] at h
    injection h with h
    subst h
    rcases hd : decodeOne s s.pos with e | ⟨v, n⟩
    · exact .inr (.inr (.inr ⟨hs, hp, e, rfl, driverStep_of_error hs hend hd⟩))
    · exact .inr (.inr (.inl ⟨hs, hp, v, n, rfl, driverStep_of_ok hs hend hd⟩))
  · rw [step_of_not_reading hs] at h
    injection h with h
    exact .inl ⟨hs, h.symm⟩

theorem step_keeps_stream {s t : State} (h : step s = .next t) : t.mem = s.mem ∧ t.len = s.len := by
  obtain ⟨-, rfl⟩ | ⟨-, -, rfl⟩ | ⟨-, -, v, n, -, rfl⟩ | ⟨-, -, e, -, rfl⟩ := step_next_cases h <;> exact ⟨rfl, rfl⟩

/-- Settles O36: no case of a step touches the stream, and reads depend on nothing else. -/
theorem noStepWritesTheStream : Obligations.NoStepWritesTheStream := by
  intro s t h
  obtain ⟨hm, hl⟩ := step_keeps_stream h
  exact ⟨hl, State.readByte_congr hm hl, State.memRead_congr hm hl⟩

/-- Settles O12: `step_of_decode`, with the cursor before the end. -/
theorem stepRunsTheDecodedInstruction : Obligations.StepRunsTheDecodedInstruction :=
  fun _ _ _ hs hp hd => step_of_decode hs hp.ne hd

/-- Settles O16: `step_at_end`. -/
theorem cleanEndEntersDone : Obligations.CleanEndEntersDone :=
  fun _ hs hp => step_at_end hs hp

/-- Settles O17: neither state is Reading. -/
theorem haltedStatesAbsorb : Obligations.HaltedStatesAbsorb := by
  rintro s (h | h) <;> exact step_of_not_reading (by simp [h])

/-- Settles O18: reset is the record update that the statement writes out. -/
theorem resetGivesTheResetValues : Obligations.ResetGivesTheResetValues :=
  ⟨fun _ => rfl, rfl⟩

/-! ## The frame of every instruction -/

theorem instrValue_isSome (i : Instr) : (instrValue i).isSome = isMov i := by
  cases i <;> rfl

theorem exists_instrValue_of_isMov {i : Instr} (h : isMov i = true) : ∃ v, instrValue i = some v :=
  Option.isSome_iff_exists.1 ((instrValue_isSome i).trans h)

theorem isMov_of_instrValue {i : Instr} {v : Instruction} (h : instrValue i = some v) : isMov i = true := by
  rw [← instrValue_isSome, h, Option.isSome_some]

/-- Where the bytes of an instruction fit, its meaning emits its value. -/
theorem exec_of_fits {i : Instr} {s : State} {v : Instruction} (hv : instrValue i = some v)
    (h : s.pos + i.length ≤ s.len) : exec i s = .next (s.emit i.length v) := by
  rw [length_eq_fieldBytes] at h
  rw [exec_eq_deliver hv, State.deliver_whole v (by omega), length_eq_fieldBytes]

/-- Settles O34: the value is `instrValue`'s. -/
theorem wholeInstructionIsEmitted : Obligations.WholeInstructionIsEmitted := by
  intro i s hi h
  obtain ⟨v, hv⟩ := exists_instrValue_of_isMov hi
  exact ⟨v, exec_of_fits hv h⟩

/-- A meaning that gives a next state emits the instruction's value, or takes an error whose record holds the cursor and its byte. -/
theorem exec_next_emit_or_setFailed {i : Instr} {s t : State} (h : exec i s = .next t) :
    (∃ v, instrValue i = some v ∧ t = s.emit i.length v) ∨
    (∃ e, e.offset = s.pos ∧ s.readByte s.pos = some e.byte ∧ t = s.setFailed e) := by
  obtain ⟨hp, ⟨v, hv, -, rfl⟩ | ⟨v, g, n, -, -, -, rfl⟩ | ⟨-, rfl⟩⟩ := exec_next h
  · exact .inl ⟨v, hv, by rw [length_eq_fieldBytes]⟩
  · exact .inr ⟨_, rfl, State.readByte_some_iff.2 ⟨hp, rfl⟩, rfl⟩
  · exact .inr ⟨_, rfl, State.readByte_some_iff.2 ⟨hp, rfl⟩, rfl⟩

/-- Settles O35: one half of the disjunction for an emission, one for an error. -/
theorem instructionFrame : Obligations.InstructionFrame := by
  intro i s t h
  obtain ⟨v, -, rfl⟩ | ⟨e, ho, hb, rfl⟩ := exec_next_emit_or_setFailed h
  · exact ⟨rfl, rfl, fun _ => rfl, .inl ⟨rfl, rfl, rfl, v, rfl⟩⟩
  · exact ⟨rfl, rfl, fun _ => rfl, .inr ⟨rfl, rfl, rfl, e, rfl, ho, hb⟩⟩

/-! ## The values of `decode_one` -/

theorem eaComponents_ne_nil : ∀ rm : BitVec 3, eaComponents rm ≠ [] := by
  decide

theorem operandOk_directOperand (a : Word16) : operandOk (directOperand a) :=
  ⟨iff_of_true rfl rfl, fun _ => rfl, fun h => absurd rfl h, nofun⟩

theorem operandOk_tableOperand (rm : BitVec 3) {d : Option Int} (h : ∀ x, d = some x → -32768 ≤ x ∧ x ≤ 32767) :
    operandOk (tableOperand rm d) :=
  ⟨iff_of_false (eaComponents_ne_nil rm) nofun, nofun, fun _ => ⟨rm, rfl⟩, h⟩

theorem signed16_bounds (x : Word16) : -32768 ≤ signed16 x ∧ signed16 x ≤ 32767 :=
  ⟨x.le_toInt, Int.le_of_lt_add_one x.toInt_lt⟩

theorem operandOk_rmOperand (w : Width) (f : RmField) : operandOk (rmOperand w f) := by
  cases f with
  | register code => trivial
  | indirect rm => exact operandOk_tableOperand rm nofun
  | direct a => exact operandOk_directOperand a
  | disp8 rm d => exact operandOk_tableOperand rm fun _ h => Option.some.inj h ▸ signed16_bounds _
  | disp16 rm d => exact operandOk_tableOperand rm fun _ h => Option.some.inj h ▸ signed16_bounds d

theorem operandOk_byteImmediate (v : Byte) : operandOk (byteImmediate v) := by
  intro _
  have := v.isLt
  rw [zext16, BitVec.toNat_setWidth]
  omega

theorem operandOk_wordImmediate (v : Word16) : operandOk (wordImmediate v) := nofun

theorem isImmediate_rmOperand (w : Width) (f : RmField) : isImmediate (rmOperand w f) = false := by
  cases f <;> rfl

/-- Every value that an instruction yields meets the data model (`10_state.md` R30 to R32). -/
theorem instructionOk_of_instrValue {i : Instr} {v : Instruction} (h : instrValue i = some v) : instructionOk v := by
  cases i <;> cases h
  case movRm8R8 reg f => exact ⟨operandOk_rmOperand _ f, trivial, isImmediate_rmOperand _ f, .inr rfl⟩
  case movRm16R16 reg f => exact ⟨operandOk_rmOperand _ f, trivial, isImmediate_rmOperand _ f, .inr rfl⟩
  case movR8Rm8 reg f => exact ⟨trivial, operandOk_rmOperand _ f, rfl, .inl rfl⟩
  case movR16Rm16 reg f => exact ⟨trivial, operandOk_rmOperand _ f, rfl, .inl rfl⟩
  case movR8Imm8 reg v => exact ⟨trivial, operandOk_byteImmediate v, rfl, .inl rfl⟩
  case movR16Imm16 reg v => exact ⟨trivial, operandOk_wordImmediate v, rfl, .inl rfl⟩
  case movRm8Imm8 f v => exact ⟨operandOk_rmOperand _ f, operandOk_byteImmediate v, isImmediate_rmOperand _ f, .inr rfl⟩
  case movRm16Imm16 f v => exact ⟨operandOk_rmOperand _ f, operandOk_wordImmediate v, isImmediate_rmOperand _ f, .inr rfl⟩
  case movAlAddr a => exact ⟨trivial, operandOk_directOperand a, rfl, .inl rfl⟩
  case movAxAddr a => exact ⟨trivial, operandOk_directOperand a, rfl, .inl rfl⟩
  case movAddrAl a => exact ⟨operandOk_directOperand a, trivial, rfl, .inr rfl⟩
  case movAddrAx a => exact ⟨operandOk_directOperand a, trivial, rfl, .inr rfl⟩

/-- The bytes that an accepted instruction takes lie in the stream. -/
theorem decode_bytesFrom_fits {s : State} {pos : Nat} {i : Instr} {rest : List Byte} (hp : pos < s.len)
    (h : decode (s.bytesFrom pos Config.maxLength) = .ok (i, rest)) : pos + i.length ≤ s.len :=
  decode_window_fits (s := { s with pos := pos }) hp h

/-- Settles O39: the value and the count are those of the instruction that the decoder accepts at that index. -/
theorem decodeOneMeetsItsContract : Obligations.DecodeOneMeetsItsContract := by
  intro s p v n hp h
  obtain ⟨i, rest, hd, hv, rfl⟩ := decodeOne_eq_ok hp h
  obtain ⟨hmin, hmax⟩ := length_bounds (isMov_of_instrValue hv)
  exact ⟨hmin, hmax, decode_bytesFrom_fits hp hd, instructionOk_of_instrValue hv⟩

/-- Settles O38: only an emission moves the cursor, by the count of `decode_one`. -/
theorem cursorAdvancesByWholeInstructions : Obligations.CursorAdvancesByWholeInstructions := by
  intro s t h
  obtain ⟨-, rfl⟩ | ⟨-, -, rfl⟩ | ⟨hs, hp, v, n, hd, rfl⟩ | ⟨-, -, e, -, rfl⟩ := step_next_cases h
  · exact .inl ⟨rfl, rfl⟩
  · exact .inl ⟨rfl, rfl⟩
  · obtain ⟨hmin, hmax, hfit, -⟩ := decodeOneMeetsItsContract s s.pos v n hp hd
    exact .inr ⟨_, rfl, rfl, rfl, hmin, hmax, hfit, hs, hs⟩
  · exact .inl ⟨rfl, rfl⟩

/-! ## The errors of `decode_one` -/

/-- A read whose value is only wrapped is refused exactly when the read is. -/
theorem andThen_pure_eq_error {α β : Type} {p : Parsed α} {f : α → β} {e : DecodeError} :
    Parsed.andThen p (fun a rest => .ok (f a, rest)) = .error e ↔ p = .error e := by
  rcases p with e' | ⟨a, rest⟩ <;> simp

/-- A stage at which the operand decoder reads. -/
def IsRmStage (g : Stage) : Prop := g = .displacement ∨ g = .address

theorem decodeRm_eq_error {m : BitVec 2} {rm : BitVec 3} {bs : List Byte} {e : DecodeError} (h : decodeRm m rm bs = .error e) :
    ∃ g, e = .truncatedStream g ∧ IsRmStage g := by
  unfold decodeRm at h
  split_ifs at h
  · exact ⟨_, (takeWord_eq_error.1 (andThen_pure_eq_error.1 h)).2, .inr rfl⟩
  · exact ⟨_, (takeByte_eq_error.1 (andThen_pure_eq_error.1 h)).2, .inl rfl⟩
  · exact ⟨_, (takeWord_eq_error.1 (andThen_pure_eq_error.1 h)).2, .inl rfl⟩

theorem decodeImmReg_eq_error {b1 : Byte} {bs : List Byte} {e : DecodeError} (h : decodeImmReg b1 bs = .error e) :
    e = .truncatedStream .immediate := by
  unfold decodeImmReg at h
  split_ifs at h
  · exact (takeByte_eq_error.1 (andThen_pure_eq_error.1 h)).2
  · exact (takeWord_eq_error.1 (andThen_pure_eq_error.1 h)).2

theorem decodeRmReg_eq_error {b1 : Byte} {bs : List Byte} {e : DecodeError} (h : decodeRmReg b1 bs = .error e) :
    ∃ g, e = .truncatedStream g ∧ (g = .modrm ∨ IsRmStage g) := by
  obtain h | ⟨b2, rest, -, h⟩ := Parsed.andThen_eq_error.1 h
  · exact ⟨_, (takeByte_eq_error.1 h).2, .inl rfl⟩
  · obtain ⟨g, he, hg⟩ := decodeRm_eq_error (andThen_pure_eq_error.1 h)
    exact ⟨g, he, .inr hg⟩

theorem decodeImmRm_eq_error {b1 : Byte} {bs : List Byte} {e : DecodeError} (h : decodeImmRm b1 bs = .error e) :
    (∃ g, e = .truncatedStream g ∧ (g = .modrm ∨ IsRmStage g ∨ g = .immediate)) ∨ e = .invalidFieldCombination .modrm := by
  obtain h | ⟨b2, rest, -, h⟩ := Parsed.andThen_eq_error.1 h
  · exact .inl ⟨_, (takeByte_eq_error.1 h).2, .inl rfl⟩
  split at h
  · injection h with h
    exact .inr h.symm
  obtain h | ⟨f, rest', -, h⟩ := Parsed.andThen_eq_error.1 h
  · obtain ⟨g, he, hg⟩ := decodeRm_eq_error h
    exact .inl ⟨g, he, .inr (.inl hg)⟩
  refine .inl ⟨.immediate, ?_, .inr (.inr rfl)⟩
  split_ifs at h
  · exact (takeByte_eq_error.1 (andThen_pure_eq_error.1 h)).2
  · exact (takeWord_eq_error.1 (andThen_pure_eq_error.1 h)).2

/-- What the decoder can refuse, by the format of byte 1 (`60_exceptions.md` R205). -/
theorem decode_eq_error {b1 : Byte} {bs : List Byte} {e : DecodeError} (h : decode (b1 :: bs) = .error e) :
    (classify b1 = some .rmReg ∧ ∃ g, e = .truncatedStream g ∧ (g = .modrm ∨ IsRmStage g)) ∨
    (classify b1 = some .immReg ∧ e = .truncatedStream .immediate) ∨
    (classify b1 = some .immRm ∧ ((∃ g, e = .truncatedStream g ∧ (g = .modrm ∨ IsRmStage g ∨ g = .immediate)) ∨
      e = .invalidFieldCombination .modrm)) ∨
    ((classify b1 = some .memAcc ∨ classify b1 = some .accMem) ∧ e = .truncatedStream .address) := by
  simp only [decode] at h
  split at h
  next hc => exact .inr (.inl ⟨hc, decodeImmReg_eq_error h⟩)
  next hc => exact .inl ⟨hc, decodeRmReg_eq_error h⟩
  next hc => exact .inr (.inr (.inl ⟨hc, decodeImmRm_eq_error h⟩))
  next hc => exact .inr (.inr (.inr ⟨.inl hc, (takeWord_eq_error.1 (andThen_pure_eq_error.1 h)).2⟩))
  next hc => exact .inr (.inr (.inr ⟨.inr hc, (takeWord_eq_error.1 (andThen_pure_eq_error.1 h)).2⟩))
  next hc => cases h

/-- An error of `decode_one`: the record it is, and where it comes from. -/
theorem decodeOne_eq_error {s : State} {pos : Nat} {e : ErrorRecord} (hp : pos < s.len) (h : decodeOne s pos = .error e) :
    (classify (s.streamByte pos) = none ∧ e = s.errorAt pos .unsupportedOpcode .classify) ∨
    (∃ g, decode (s.bytesFrom pos Config.maxLength) = .error (.truncatedStream g) ∧ e = s.errorAt pos .truncatedStream g) ∨
    (∃ g, decode (s.bytesFrom pos Config.maxLength) = .error (.invalidFieldCombination g) ∧
      e = s.errorAt pos .invalidFieldCombination g) := by
  obtain ⟨i, rest, v, -, -, he⟩ | ⟨_, hc, -, he⟩ | ⟨g, hd, he⟩ | ⟨g, hd, he⟩ := decodeOne_cases hp <;>
    rw [he] at h <;> cases h
  · exact .inl ⟨hc, rfl⟩
  · exact .inr (.inl ⟨g, hd, rfl⟩)
  · exact .inr (.inr ⟨g, hd, rfl⟩)

/-- Settles O40: the decoder's refusals by format, each with its record. -/
theorem errorsByFormat : Obligations.ErrorsByFormat := by
  intro s p e hp h
  have hread : s.readByte p = some (s.streamByte p) := State.readByte_some_iff.2 ⟨hp, rfl⟩
  obtain ⟨hc, rfl⟩ | ⟨g, hd, rfl⟩ | ⟨g, hd, rfl⟩ := decodeOne_eq_error hp h
  · exact ⟨rfl, hread, .inl ⟨hc, rfl, rfl⟩⟩
  · refine ⟨rfl, hread, ?_⟩
    rw [bytesFrom_eq_cons_ahead hp] at hd
    obtain ⟨hc, g', he, hg⟩ | ⟨hc, he⟩ | ⟨hc, ⟨g', he, hg⟩ | he⟩ | ⟨hc, he⟩ := decode_eq_error hd <;>
      simp only [DecodeError.truncatedStream.injEq, reduceCtorEq] at he <;> subst he
    · exact .inr (.inl ⟨hc, rfl, hg⟩)
    · exact .inr (.inr (.inl ⟨hc, rfl, rfl⟩))
    · exact .inr (.inr (.inr (.inl ⟨hc, rfl, hg.imp_right or_assoc.1⟩)))
    · exact .inr (.inr (.inr (.inr (.inr ⟨hc, rfl, rfl⟩))))
  · refine ⟨rfl, hread, ?_⟩
    rw [bytesFrom_eq_cons_ahead hp] at hd
    obtain ⟨_, _, he, _⟩ | ⟨_, he⟩ | ⟨hc, ⟨_, he, _⟩ | he⟩ | ⟨_, he⟩ := decode_eq_error hd <;>
      simp only [DecodeError.invalidFieldCombination.injEq, reduceCtorEq] at he
    subst he
    exact .inr (.inr (.inr (.inr (.inl ⟨hc, rfl, rfl⟩))))

end Sys2Proof.Machine
end

section
/-! PROOF. Which encodings emit one value (`30_encoding.md` R75) and which do not (`44_mov_imm_reg.md` R143): what a meaning emits is
`instrValue`, so both are facts about that function. -/

namespace Sys2Proof.Machine

open Sys2Proof.Claims

/-! ## Redundant encodings -/

/-- With six bytes ahead an instruction emits its value. -/
theorem exec_emits_of_six {s : State} (h : s.pos + 6 ≤ s.len) {i : Instr} {v : Instruction} (hv : instrValue i = some v) :
    ∃ t, exec i s = .next t ∧ t.out = s.out ++ [⟨s.pos, i.length, v⟩] := by
  obtain ⟨-, hmax⟩ := length_bounds (isMov_of_instrValue hv)
  exact ⟨_, exec_of_fits hv (by omega), rfl⟩

/-- Settles O41: the two instructions of each pair have one `instrValue`. -/
theorem redundantEncodingsEmitOneValue : Obligations.RedundantEncodingsEmitOneValue := by
  intro s h same
  have same_of_value {i j : Instr} {v : Instruction} (hi : instrValue i = some v) (hj : instrValue j = some v) : same i j :=
    ⟨v, exec_emits_of_six h hi, exec_emits_of_six h hj⟩
  exact ⟨fun _ _ => same_of_value rfl rfl, fun _ _ => same_of_value rfl rfl, fun _ => same_of_value rfl rfl,
    fun _ => same_of_value rfl rfl, fun _ => same_of_value rfl rfl, fun _ => same_of_value rfl rfl,
    fun _ _ => same_of_value rfl rfl, fun _ _ => same_of_value rfl rfl⟩

/-! ## Immediate to register -/

/-- An emitted value is the instruction's. -/
theorem instrValue_of_exec_out {i : Instr} {s t : State} {v : Instruction} (h : exec i s = .next t)
    (ho : t.out = s.out ++ [⟨s.pos, i.length, v⟩]) : instrValue i = some v := by
  obtain ⟨w, hw, rfl⟩ | ⟨e, -, -, rfl⟩ := exec_next_emit_or_setFailed h
  · obtain rfl : w = v := by simpa using ho
    exact hw
  · simp at ho

theorem zext16_injective : Function.Injective zext16 := by
  intro v w h
  have hn := congrArg BitVec.toNat h
  rw [zext16, zext16, BitVec.toNat_setWidth, BitVec.toNat_setWidth] at hn
  exact BitVec.eq_of_toNat_eq (by omega)

theorem isImmReg_cases {i : Instr} (h : isImmReg i = true) :
    (∃ r v, i = .movR8Imm8 r v) ∨ ∃ r v, i = .movR16Imm16 r v := by
  cases i with
  | movR8Imm8 r v => exact .inl ⟨r, v, rfl⟩
  | movR16Imm16 r v => exact .inr ⟨r, v, rfl⟩
  | _ => cases h

/-- The value of an IMM_REG instruction holds its register code, its width and its immediate. -/
theorem instrValue_inj_of_isImmReg {i j : Instr} (hi : isImmReg i = true) (hj : isImmReg j = true)
    (h : instrValue i = instrValue j) : i = j := by
  obtain ⟨r, v, rfl⟩ | ⟨r, v, rfl⟩ := isImmReg_cases hi <;> obtain ⟨r', v', rfl⟩ | ⟨r', v', rfl⟩ := isImmReg_cases hj <;>
    simp only [instrValue, mov, regOperand, byteImmediate, wordImmediate, Option.some.injEq, Instruction.mk.injEq,
      Operand.register.injEq, Operand.immediate.injEq, reduceCtorEq, and_false, true_and, and_true] at h
  · rw [(regLookup_inj h.1).2, zext16_injective h.2]
  · rw [(regLookup_inj h.1).2, h.2]

/-- Settles O42: equal values come from equal instructions. -/
theorem immRegValuesTellTheEncoding : Obligations.ImmRegValuesTellTheEncoding := by
  intro i j s t u v hi hj ht hto hu huo
  have hv := (instrValue_of_exec_out ht hto).trans (instrValue_of_exec_out hu huo).symm
  rw [instrValue_inj_of_isImmReg hi hj hv]

end Sys2Proof.Machine
end

section
/-! PROOF. The invariant of the machine (`10_state.md` R22 to R26): it holds where a run begins, every step gives a next state and keeps
it, and a run reaches Done or Failed within half the bytes ahead and one step (`47_driver_and_output.md` R180). -/

namespace Sys2Proof.Machine

open Sys2Proof.Claims

/-! ## What a decode and a tiling depend on -/

/-- `decode_one` depends on the stream alone. -/
theorem decodeOne_congr {s t : State} (hm : t.mem = s.mem) (hl : t.len = s.len) (p : Nat) : decodeOne t p = decodeOne s p := by
  cases s
  cases t
  subst hm hl
  rfl

theorem tiles_congr {s t : State} (hm : t.mem = s.mem) (hl : t.len = s.len) {start stop : Nat} {es : List Emitted} :
    Tiles t start es stop ↔ Tiles s start es stop := by
  induction es generalizing start with
  | nil => rfl
  | cons e es ih => simp only [Tiles, ih, hl, decodeOne_congr hm hl]

/-- One more entry, decoded where the tiling stopped. -/
theorem Tiles.concat {s : State} {start stop n : Nat} {es : List Emitted} {v : Instruction} (h : Tiles s start es stop)
    (hp : stop < s.len) (hd : decodeOne s stop = .ok (v, n)) : Tiles s start (es ++ [⟨stop, n, v⟩]) (stop + n) := by
  induction es generalizing start with
  | nil =>
    obtain rfl : start = stop := h
    exact ⟨rfl, hp, hd, rfl⟩
  | cons e es ih =>
    obtain ⟨ho, hlt, he, hrest⟩ := h
    exact ⟨ho, hlt, he, ih hrest⟩

/-! ## Every step keeps the invariant -/

theorem State.Inv.err_eq_none {s : State} (h : s.Inv) (hs : s.st ≠ .failed) : s.err = none := by
  have hsome := mt h.err_iff_failed.1 hs
  simpa using hsome

theorem State.Inv.setDone {s : State} (h : s.Inv) (hs : s.st = .reading) (hp : s.pos = s.len) : s.setDone.Inv where
  mem_canonical := h.mem_canonical
  mem_inside := h.mem_inside
  pos_le_len := h.pos_le_len
  err_iff_failed := by simp [h.err_eq_none (by simp [hs])]
  err_is_cause := by simp [h.err_eq_none (by simp [hs])]
  done_at_end := fun _ => hp
  out_tiles := (tiles_congr (s := s) (t := s.setDone) rfl rfl).2 h.out_tiles

theorem State.Inv.emit {s : State} {v : Instruction} {n : Nat} (h : s.Inv) (hs : s.st = .reading) (hp : s.pos < s.len)
    (hd : decodeOne s s.pos = .ok (v, n)) : (s.emit n v).Inv where
  mem_canonical := h.mem_canonical
  mem_inside := h.mem_inside
  pos_le_len := (decodeOneMeetsItsContract s s.pos v n hp hd).2.2.1
  err_iff_failed := h.err_iff_failed
  err_is_cause := by simp [h.err_eq_none (by simp [hs])]
  done_at_end := by simp [hs]
  out_tiles := (tiles_congr (s := s) (t := s.emit n v) rfl rfl).2 (h.out_tiles.concat hp hd)

theorem State.Inv.setFailed {s : State} {e : ErrorRecord} (h : s.Inv) (hp : s.pos < s.len)
    (hd : decodeOne s s.pos = .error e) : (s.setFailed e).Inv where
  mem_canonical := h.mem_canonical
  mem_inside := h.mem_inside
  pos_le_len := h.pos_le_len
  err_iff_failed := by simp
  err_is_cause := fun e' he => by
    obtain rfl : e = e' := Option.some.inj he
    exact ⟨hp, (decodeOne_congr rfl rfl _).trans hd⟩
  done_at_end := nofun
  out_tiles := (tiles_congr (s := s) (t := s.setFailed e) rfl rfl).2 h.out_tiles

theorem State.Inv.step {s t : State} (h : s.Inv) (ht : Machine.step s = .next t) : t.Inv := by
  obtain ⟨-, rfl⟩ | ⟨hs, hp, rfl⟩ | ⟨hs, hp, v, n, hd, rfl⟩ | ⟨-, hp, e, hd, rfl⟩ := step_next_cases ht
  · exact h
  · exact h.setDone hs hp
  · exact h.emit hs hp hd
  · exact h.setFailed hp hd

/-- Settles O43: the cases of a step in terms of `decode_one`, each of which keeps every field of the invariant. -/
theorem everyStepKeepsTheInvariant : Obligations.EveryStepKeepsTheInvariant :=
  fun _ _ h => h.step

/-- Settles O46: in the invariant the cursor lies in the stream, where the step is the driver's. -/
theorem invariantStatesAlwaysStep : Obligations.InvariantStatesAlwaysStep :=
  fun _ h => ⟨_, step_eq_driverStep h.pos_le_len⟩

/-! ## Where a run begins -/

theorem boot_inv (bytes : List Byte) : (State.boot bytes).Inv where
  mem_canonical := State.loadStream_wf State.reset bytes
  mem_inside := Memory.writeBytes_inside bytes nofun (by simp)
  pos_le_len := Nat.zero_le _
  err_iff_failed := by simp
  err_is_cause := nofun
  done_at_end := nofun
  out_tiles := rfl

/-- Settles O45: loading gives canonical form inside the length, and no entry tiles the stream up to index 0. -/
theorem everyBootedStreamMeetsTheInvariant : Obligations.EveryBootedStreamMeetsTheInvariant :=
  boot_inv

/-- Settles O44: the reset state is the boot of the empty stream. -/
theorem resetMeetsTheInvariant : Obligations.ResetMeetsTheInvariant :=
  boot_inv []

/-! ## Termination -/

/-- A step halts the machine or moves the cursor by at least two bytes, within the stream. -/
theorem step_halts_or_advances {s t : State} (h : step s = .next t) :
    t.st ≠ .reading ∨ (s.pos + 2 ≤ t.pos ∧ t.pos ≤ t.len ∧ t.len = s.len) := by
  obtain ⟨hs, rfl⟩ | ⟨-, -, rfl⟩ | ⟨-, hp, v, n, hd, rfl⟩ | ⟨-, -, e, -, rfl⟩ := step_next_cases h
  · exact .inl hs
  · exact .inl nofun
  · obtain ⟨hmin, -, hfit, -⟩ := decodeOneMeetsItsContract s s.pos v n hp hd
    exact .inr ⟨Nat.add_le_add_left hmin _, hfit, rfl⟩
  · exact .inl nofun

/-- With at least half the bytes ahead and one more in steps, a run halts, and the invariant holds there. -/
theorem run_halts {n : Nat} {s : State} (h : s.Inv) (hn : (s.len - s.pos) / 2 < n) :
    ∃ t : State, Host.Core.run Sys2Proof.core n s = .next t ∧ t.st ≠ .reading ∧ t.Inv := by
  induction n generalizing s with
  | zero => omega
  | succ n ih =>
    have hstep := step_eq_driverStep h.pos_le_len
    have hinv := h.step hstep
    rw [run_of_next n hstep]
    obtain hhalt | ⟨hadv, hle, hlen⟩ := step_halts_or_advances hstep
    · exact ⟨_, run_of_not_reading n hhalt, hhalt, hinv⟩
    · exact ih hinv (by omega)

/-- Settles O47: `run_halts` at the exact bound. -/
theorem everyRunHaltsWithinItsBound : Obligations.EveryRunHaltsWithinItsBound := by
  intro s h
  obtain ⟨t, hrun, hhalt, hinv⟩ := run_halts h (Nat.lt_succ_self _)
  refine ⟨t, hrun, ?_, hinv⟩
  cases hst : t.st with
  | reading => exact absurd hst hhalt
  | done => exact .inl rfl
  | failed => exact .inr rfl

end Sys2Proof.Machine
end

section
/-! PROOF. What the platform places from outside: a booted state holds its stream (`20_memory.md` R40, R41), and a placed table word is
what the next step decodes (`70_reset_and_hazards.md` R231). -/

namespace Sys2Proof.Machine

open Sys2Proof.Claims

theorem boot_readByte (bytes : List Byte) (i : Nat) : (State.boot bytes).readByte i = bytes[i]? := by
  by_cases h : i < bytes.length
  · rw [List.getElem?_eq_getElem h]
    exact State.readByte_some_iff.2 ⟨h, State.boot_lookup bytes i h⟩
  · rw [List.getElem?_eq_none (by omega)]
    exact State.readByte_none_iff.2 (by simpa using h)

theorem boot_memRead (bytes : List Byte) (a n : Nat) :
    (State.boot bytes).memRead a n = if a + n ≤ bytes.length then some ((bytes.drop a).take n) else none := by
  rw [State.memRead, State.boot_len]
  split_ifs with h
  · congr 1
    refine List.ext_getElem (by simp; omega) fun k hk _ => ?_
    simp only [List.length_map, List.length_range] at hk
    simpa using State.boot_lookup bytes (a + k) (by omega)
  · rfl

/-- Settles O48: both reads through `State.boot_lookup`. -/
theorem bootedStateHoldsItsStream : Obligations.BootedStateHoldsItsStream :=
  fun bytes => ⟨rfl, boot_readByte bytes, boot_memRead bytes⟩

/-- Bytes placed at the cursor are read there. -/
theorem placeAtCursor_readByte {s : State} (hm : Memory.wf s.mem = true) (bs : List Byte) {k : Nat} (hk : k < bs.length) :
    (s.placeAtCursor bs).readByte (s.pos + k) = bs[k]? := by
  rw [List.getElem?_eq_getElem hk]
  refine State.readByte_some_iff.2 ⟨by simp; omega, ?_⟩
  rw [State.placeAtCursor_mem, Memory.lookup_writeBytes hm, if_pos (by omega)]
  simp [hk]

/-- A full window of placed bytes is those bytes. -/
theorem window_placeAtCursor {s : State} (hm : Memory.wf s.mem = true) {bs : List Byte} (hn : bs.length = Config.maxLength) :
    (s.placeAtCursor bs).window = bs := by
  refine List.ext_getElem? fun k => ?_
  rw [State.window_getElem?, ← hn]
  split_ifs with hk
  · exact placeAtCursor_readByte hm bs hk
  · exact (List.getElem?_eq_none (by omega)).symm

theorem tableBytes_length (nbits w : Nat) : (tableBytes nbits w).length = Config.maxLength := by
  simp [tableBytes]

theorem decode_of_decodeTableWord {nbits w : Nat} {i : Instr} (h : decodeTableWord nbits w = some i) :
    ∃ rest, decode (tableBytes nbits w) = .ok (i, rest) := by
  unfold decodeTableWord at h
  split at h
  next j rest hd =>
    injection h with h
    exact ⟨rest, h ▸ hd⟩
  next => cases h

/-- Settles O49: the window of the placed state is the word's bytes. -/
theorem placedWordRunsNext : Obligations.PlacedWordRunsNext := by
  intro s nbits w i hm h
  obtain ⟨rest, hd⟩ := decode_of_decodeTableWord h
  have hlen := tableBytes_length nbits w
  refine step_of_decode rfl ?_ ((congrArg decode (window_placeAtCursor hm hlen)).trans hd)
  have : s.pos < max s.len (s.pos + (tableBytes nbits w).length) := by rw [hlen, Config.maxLength]; omega
  exact this.ne

end Sys2Proof.Machine
end

section
/-! PROOF. An instruction at the cursor, whole or cut by the end of the stream: the decoder and the meaning find the same first missing
byte, at the stage that `stageAt` names (`60_exceptions.md` R201, R204, R206). -/

namespace Sys2Proof.Machine

open Sys2Proof.Claims

/-! ## The meaning of a cut instruction -/

/-- Taking the bytes of an `rm` operand, all at one stage. -/
theorem takeFields_rmFields_append {len p : Nat} (f : RmField) (hp : p ≤ len) (rest : List (Stage × Nat)) :
    takeFields len p (rmFields f ++ rest) =
      if p + f.tail.length > len then .error (rmStage f) else takeFields len (p + f.tail.length) rest := by
  have hle : ¬ p > len := by omega
  cases f <;> simp [rmFields, RmField.tail, takeFields, rmStage, hle]

theorem stageInRm_of_lt {f : RmField} {k : Nat} (h0 : k ≠ 0) (h1 : k ≠ 1) (h : k < 2 + f.tail.length) :
    stageInRm f k = rmStage f := by
  rw [stageInRm, if_neg h0, if_neg h1, if_pos h]

theorem stageInRm_of_ge {f : RmField} {k : Nat} (h : 2 + f.tail.length ≤ k) : stageInRm f k = .immediate := by
  rw [stageInRm, if_neg (by omega), if_neg (by omega), if_neg (by omega)]

/-- Taking the addressing byte and the bytes of its operand. -/
theorem takeFields_modrm {len pos : Nat} (f : RmField) (hp : pos < len) (rest : List (Stage × Nat)) :
    takeFields len (pos + 1) ((.modrm, 1) :: (rmFields f ++ rest)) =
      if len < pos + (2 + f.tail.length) then .error (stageInRm f (len - pos))
      else takeFields len (pos + (2 + f.tail.length)) rest := by
  rw [takeFields]
  by_cases h1 : len = pos + 1
  · rw [if_pos (by omega), if_pos (by omega), h1, Nat.add_sub_cancel_left]
    rfl
  have hend : pos + 1 + 1 + f.tail.length = pos + (2 + f.tail.length) := by omega
  rw [if_neg (by omega), takeFields_rmFields_append f (by omega), hend]
  by_cases h2 : len < pos + (2 + f.tail.length)
  · rw [if_pos h2, if_pos h2, stageInRm_of_lt (by omega) (by omega) (by omega)]
  · rw [if_neg h2, if_neg h2]

theorem takeFields_rmRegFields_cut {len pos : Nat} {f : RmField} (hp : pos < len) (hc : len < pos + (2 + f.tail.length)) :
    takeFields len (pos + 1) (rmRegFields f) = .error (stageInRm f (len - pos)) := by
  rw [rmRegFields, ← List.append_nil (rmFields f), takeFields_modrm f hp, if_pos hc]

theorem takeFields_immRmFields_cut {len pos n : Nat} {f : RmField} (hp : pos < len)
    (hc : len < pos + (2 + f.tail.length) + n) :
    takeFields len (pos + 1) (immRmFields f n) = .error (stageInRm f (len - pos)) := by
  rw [immRmFields, takeFields_modrm f hp]
  split_ifs with h
  · rfl
  · rw [takeFields, if_pos hc, stageInRm_of_ge (by omega)]

/-- The groups of bytes of a cut instruction stop at the stage of its first missing byte. -/
theorem takeFields_of_cut {i : Instr} {len pos : Nat} (hi : isMov i = true) (hp : pos < len) (hc : len < pos + i.length) :
    takeFields len (pos + 1) (instrFields i) = .error (stageAt i (len - pos)) := by
  have hk : len - pos ≠ 0 := by omega
  cases i with
  | movRm8R8 reg f => exact takeFields_rmRegFields_cut hp (rmRegInstr_length 0 0 reg f ▸ hc)
  | movRm16R16 reg f => exact takeFields_rmRegFields_cut hp (rmRegInstr_length 0 1 reg f ▸ hc)
  | movR8Rm8 reg f => exact takeFields_rmRegFields_cut hp (rmRegInstr_length 1 0 reg f ▸ hc)
  | movR16Rm16 reg f => exact takeFields_rmRegFields_cut hp (rmRegInstr_length 1 1 reg f ▸ hc)
  | movRm8Imm8 f v =>
    rw [length_movRm8Imm8] at hc
    exact takeFields_immRmFields_cut hp (by omega)
  | movRm16Imm16 f v =>
    rw [length_movRm16Imm16] at hc
    exact takeFields_immRmFields_cut hp (by omega)
  | unsupportedFirstByte b => cases hi
  | _ =>
    simp only [Instr.length, encode, List.length_cons, List.length_nil] at hc
    simp only [instrFields, takeFields, stageAt, if_neg hk]
    rw [if_pos (by omega)]

theorem exec_of_cut {i : Instr} {s : State} (hi : isMov i = true) (hp : s.pos < s.len) (hc : s.len < s.pos + i.length) :
    exec i s = s.raise .truncatedStream (stageAt i (s.len - s.pos)) := by
  obtain ⟨v, hv⟩ := exists_instrValue_of_isMov hi
  rw [exec_eq_deliver hv, State.deliver, takeFields_of_cut hi hp hc]

/-- Settles O33: the groups of bytes of the meaning stop at the first missing byte. -/
theorem cutInstructionTakesTruncatedStream : Obligations.CutInstructionTakesTruncatedStream := by
  intro i s b hi hb hc
  rw [exec_of_cut hi (State.readByte_some_iff.1 hb).1 hc, State.raise_of_read hb]
  rfl

/-! ## The decoder on a cut encoding -/

/-- The operand decoder on a form whose bytes are not all there. -/
theorem decodeRm_take {f : RmField} {n : Nat} (h : n < f.tail.length) :
    decodeRm f.mod f.rmCode (f.tail.take n) = .error (.truncatedStream (rmStage f)) := by
  have hlen : (f.tail.take n).length < f.tail.length := by rw [List.length_take]; omega
  cases f with
  | register code => cases h
  | indirect rm => cases h
  | direct a => exact decodeRm_direct_cut hlen
  | disp8 rm d =>
    obtain rfl : n = 0 := Nat.lt_one_iff.1 h
    exact decodeRm_disp8_cut rm
  | disp16 rm d => exact decodeRm_disp16_cut rm hlen

theorem eq_one_or_add_two {k : Nat} (h : 0 < k) : k = 1 ∨ ∃ j, k = j + 2 := by
  obtain h1 | h2 : k = 1 ∨ 2 ≤ k := by omega
  · exact .inl h1
  · exact .inr ⟨k - 2, by omega⟩

theorem decode_rmReg_take {b1 : Byte} (hc : classify b1 = some .rmReg) (reg : BitVec 3) {f : RmField} {k : Nat} (h0 : 0 < k)
    (hk : k < 2 + f.tail.length) :
    decode ((b1 :: f.addressingByte reg :: f.tail).take k) = .error (.truncatedStream (stageInRm f k)) := by
  obtain rfl | ⟨j, rfl⟩ := eq_one_or_add_two h0
  · exact decode_rmReg_cut hc
  · rw [List.take_succ_cons, List.take_succ_cons, decode_rmReg hc, RmField.mod_of_addressingByte,
      RmField.rm_of_addressingByte, decodeRm_take (by omega), Parsed.andThen_error, stageInRm_of_lt (by omega) (by omega) hk]

theorem decode_immRm_take {b1 : Byte} (hc : classify b1 = some .immRm) {f : RmField} (h : f.wf = true) {imm : List Byte}
    (himm : ∀ n, n < imm.length → readImmediate b1 f (imm.take n) = .error (.truncatedStream .immediate)) {k : Nat} (h0 : 0 < k)
    (hk : k < 2 + f.tail.length + imm.length) :
    decode ((b1 :: f.addressingByte 0 :: (f.tail ++ imm)).take k) = .error (.truncatedStream (stageInRm f k)) := by
  obtain rfl | ⟨j, rfl⟩ := eq_one_or_add_two h0
  · exact decode_immRm_cut hc
  rw [List.take_succ_cons, List.take_succ_cons, List.take_append]
  by_cases hj : j < f.tail.length
  · rw [Nat.sub_eq_zero_of_le hj.le, List.take_zero, List.append_nil, decode_immRm_addressingByte hc, decodeRm_take hj,
      Parsed.andThen_error, stageInRm_of_lt (by omega) (by omega) (by omega)]
  · rw [List.take_of_length_le (by omega), decode_immRm_of_form hc h, himm _ (by omega), stageInRm_of_ge (by omega)]

theorem readImmediate_byte_take (f : RmField) (v : Byte) {n : Nat} (h : n < [v].length) :
    readImmediate 0xC6 f ([v].take n) = .error (.truncatedStream .immediate) := by
  obtain rfl : n = 0 := Nat.lt_one_iff.1 h
  rfl

/-- A cut word is refused, whatever would follow it. -/
theorem andThen_takeWord_take {β : Type} (g : Stage) {lo hi : Byte} {n : Nat} (h : n < 2) (k : Word16 → List Byte → Parsed β) :
    Parsed.andThen (takeWord g ([lo, hi].take n)) k = .error (.truncatedStream g) := by
  rw [takeWord_eq_error.2 ⟨by simpa using h, rfl⟩, Parsed.andThen_error]

theorem readImmediate_word_take (f : RmField) (lo hi : Byte) {n : Nat} (h : n < [lo, hi].length) :
    readImmediate 0xC7 f ([lo, hi].take n) = .error (.truncatedStream .immediate) :=
  andThen_takeWord_take _ h _

/-- A format that takes one word after byte 1 refuses every cut of it at the word's stage. -/
theorem decode_word_take {b1 lo hi : Byte} {g : Stage} {mk : Word16 → Instr}
    (hdecode : ∀ bs, decode (b1 :: bs) = Parsed.andThen (takeWord g bs) fun w rest => .ok (mk w, rest)) {k : Nat} (h0 : 0 < k)
    (hk : k < 3) : decode ([b1, lo, hi].take k) = .error (.truncatedStream (if k = 0 then .classify else g)) := by
  rw [if_neg h0.ne']
  obtain ⟨j, rfl⟩ := Nat.exists_eq_succ_of_ne_zero h0.ne'
  rw [List.take_succ_cons, hdecode]
  exact andThen_takeWord_take g (Nat.lt_of_succ_lt_succ hk) _

/-- The decoder refuses a cut encoding at the stage of its first missing byte. -/
theorem decode_take_encode {i : Instr} (h : i.wf = true) (hi : isMov i = true) {k : Nat} (h0 : 0 < k) (hk : k < i.length) :
    decode ((encode i).take k) = .error (.truncatedStream (stageAt i k)) := by
  cases i with
  | movRm8R8 reg f => exact decode_rmReg_take (by decide) reg h0 (rmRegInstr_length 0 0 reg f ▸ hk)
  | movRm16R16 reg f => exact decode_rmReg_take (by decide) reg h0 (rmRegInstr_length 0 1 reg f ▸ hk)
  | movR8Rm8 reg f => exact decode_rmReg_take (by decide) reg h0 (rmRegInstr_length 1 0 reg f ▸ hk)
  | movR16Rm16 reg f => exact decode_rmReg_take (by decide) reg h0 (rmRegInstr_length 1 1 reg f ▸ hk)
  | movR8Imm8 reg v =>
    obtain rfl : k = 1 := by simp only [Instr.length, encode, List.length_cons, List.length_nil] at hk; omega
    rw [encode_movR8Imm8]
    exact decode_immReg_byte reg []
  | movR16Imm16 reg v =>
    rw [encode_movR16Imm16]
    exact decode_word_take (decode_immReg_word reg) h0 hk
  | movRm8Imm8 f v =>
    rw [length_movRm8Imm8] at hk
    exact decode_immRm_take (by decide) h (fun _ => readImmediate_byte_take f v) h0 (by simp; omega)
  | movRm16Imm16 f v =>
    rw [length_movRm16Imm16] at hk
    exact decode_immRm_take (by decide) h (fun _ => readImmediate_word_take f _ _) h0 (by simp; omega)
  | unsupportedFirstByte b => cases hi
  | movAlAddr a => exact decode_word_take (decode_memAcc (by decide)) h0 hk
  | movAxAddr a => exact decode_word_take (decode_memAcc (by decide)) h0 hk
  | movAddrAl a => exact decode_word_take (decode_accMem (by decide)) h0 hk
  | movAddrAx a => exact decode_word_take (decode_accMem (by decide)) h0 hk

/-! ## The step on an instruction at the cursor -/

/-- Settles O13: the window starts with the encoding, which the decoder reads back. -/
theorem stepRunsTheEncodedInstruction : Obligations.StepRunsTheEncodedInstruction := by
  intro s i hwf hs h
  obtain ⟨hpos, hmax⟩ := length_pos_le i
  obtain ⟨rest, hw⟩ := State.window_of_holds hmax h
  have hp : s.pos < s.len := by
    have hread := (h 0 hpos).trans (List.getElem?_eq_getElem hpos)
    exact (State.readByte_some_iff.1 hread).1
  exact step_of_decode hs hp.ne (hw ▸ decode_encode hwf rest)

/-- An instruction that can be cut is one of the twelve: the last row has one byte. -/
theorem isMov_of_one_lt_length {i : Instr} (h : 1 < i.length) : isMov i = true := by
  by_contra hi
  obtain ⟨b, rfl⟩ := eq_unsupportedFirstByte_of_not_isMov (Bool.eq_false_iff.2 hi)
  exact absurd h (lt_irrefl 1)

/-- Settles O14: the window is the cut encoding, and the decoder's stage is the meaning's. -/
theorem stepOnACutInstructionRunsIt : Obligations.StepOnACutInstructionRunsIt := by
  intro s i hwf hs hp hc h
  have hi : isMov i = true := isMov_of_one_lt_length (by omega)
  have hw : s.window = (encode i).take (s.len - s.pos) := State.window_of_cut (length_pos_le i).2 hc h
  rw [exec_of_cut hi hp hc]
  exact step_of_truncated hs hp.ne (hw ▸ decode_take_encode hwf hi (by omega) (by omega))

/-! ## First bytes that are refused, and fields that are -/

/-- Settles O31: the meaning raises; the decoder gives the last row exactly for the bytes of the ranges. -/
theorem unsupportedFirstByteHalts : Obligations.UnsupportedFirstByteHalts := by
  intro s b hb
  refine ⟨(exec_eq_raise rfl s).trans (State.raise_of_read hb _ _), fun hs hrange => ?_⟩
  have hp : s.pos < s.len := (State.readByte_some_iff.1 hb).1
  have hd := decode_of_classify_none ((classify_eq_none_iff b).2 hrange) (s.bytesFrom (s.pos + 1) 5)
  rw [← window_of_read hb] at hd
  exact step_of_decode hs hp.ne hd

/-- Settles O32: the decoder checks the `reg` field before it reads on. -/
theorem nonZeroRegFieldIsInvalid : Obligations.NonZeroRegFieldIsInvalid := by
  intro s b1 b2 hs h1 hb1 h2 hreg
  have hp : s.pos < s.len := (State.readByte_some_iff.1 h1).1
  have hc : classify b1 = some .immRm := by rcases hb1 with rfl | rfl <;> decide
  have hne : extract b2 3 3 ≠ 0#3 := fun h => hreg ((extract_reg_toNat b2).symm.trans (congrArg BitVec.toNat h))
  have hd := decode_immRm hc b2 (s.bytesFrom (s.pos + 2) 4)
  rw [if_pos hne, ← bytesFrom_of_read h2, ← window_of_read h1] at hd
  exact (step_of_invalid hs hp.ne hd).trans (State.raise_of_read h1 _ _)

end Sys2Proof.Machine
end

section
/-! PROOF. The instructions of IMM_RM (`45_mov_imm_rm.md` R150 to R152): the operand's bytes by `RmForms`, then the immediate. -/

namespace Sys2Proof.Machine

open Sys2Proof.Claims

theorem bytesFrom_drop (s : State) (p n k : Nat) : (s.bytesFrom p n).drop k = s.bytesFrom (p + k) (n - k) := by
  refine List.ext_getElem? fun j => ?_
  rw [List.getElem?_drop, State.bytesFrom_getElem?, State.bytesFrom_getElem?, Nat.add_assoc]
  exact if_congr (by omega) rfl rfl

/-- The operand decoder leaves the stream bytes after the operand's own. -/
theorem decodeRm_bytesFrom_rest {s : State} {p n : Nat} {m : BitVec 2} {rm : BitVec 3} {f : RmField} {rest : List Byte}
    (h : decodeRm m rm (s.bytesFrom p n) = .ok (f, rest)) : rest = s.bytesFrom (p + f.tail.length) (n - f.tail.length) := by
  obtain ⟨-, -, -, hbs⟩ := decodeRm_eq_ok h
  rw [← bytesFrom_drop, hbs, List.drop_left]

/-- The clauses of IMM_RM, when `P` holds wherever the decoder has come to the immediate, `k` bytes from the cursor with at least two
bytes of the window left. -/
theorem immRm_clauses {s : State} {b1 : Byte} {width : Width} {P : Nat → RmField → Operand → Prop} (hs : s.st = .reading)
    (hc : classify b1 = some .immRm) (h1 : s.readByte s.pos = some b1)
    (hP : ∀ f k n, k = 2 + f.tail.length → decode s.window = readImmediate b1 f (s.bytesFrom (s.pos + k) (n + 2)) →
      P k f (rmOperand width f)) :
    (s.readByte (s.pos + 1) = none → Truncates s .modrm) ∧ ImmRmForms s width P := by
  have hp : s.pos < s.len := (State.readByte_some_iff.1 h1).1
  refine ⟨fun h2 => truncates_of_decode hs hp ?_, fun b2 h2 hreg => ?_⟩
  · rw [window_of_read h1, bytesFrom_of_none h2, decode_immRm_cut hc]
  have hzero : extract b2 3 3 = 0#3 := BitVec.eq_of_toNat_eq ((extract_reg_toNat b2).trans hreg)
  have hdecode := decode_immRm hc b2 (s.bytesFrom (s.pos + 2) 4)
  rw [if_neg (not_not.2 hzero), ← bytesFrom_of_read h2 4, ← window_of_read h1] at hdecode
  have hforms : RmForms s width b2 P := by
    refine rmForms_of_decodeRm (fun f rest hf => ?_) fun g hg => truncates_of_decode hs hp ?_
    · obtain ⟨n, hn⟩ : ∃ n, 4 - f.tail.length = n + 2 := ⟨2 - f.tail.length, by have := f.tail_length_le; omega⟩
      refine hP f _ n rfl ?_
      rw [hdecode, hf, Parsed.andThen_ok, decodeRm_bytesFrom_rest hf, hn, Nat.add_assoc]
    · rw [hdecode, hg, Parsed.andThen_error]
  exact hforms

theorem instrValue_movRm8Imm8 (f : RmField) (v : Byte) :
    instrValue (.movRm8Imm8 f v) = some (movOf (rmOperand .byte f) (imm8 v)) := by
  rw [← byteImmediate_eq_imm8]
  rfl

theorem instrValue_movRm16Imm16 (f : RmField) (lo hi : Byte) :
    instrValue (.movRm16Imm16 f (joinBytes hi lo)) = some (movOf (rmOperand .word f) (imm16 lo hi)) := by
  rw [← wordImmediate_joinBytes]
  rfl

/-- Settles O25: at the immediate the decoder takes one byte, which is missing or is the value. -/
theorem movRm8Imm8DecodesAndEmits : Obligations.MovRm8Imm8DecodesAndEmits := by
  intro s hs h1
  have hp : s.pos < s.len := (State.readByte_some_iff.1 h1).1
  refine immRm_clauses hs (by decide) h1 fun f k n hk hd => ?_
  rw [readImmediate_byte] at hd
  refine ⟨fun hcut => truncates_of_decode hs hp ?_, fun v hv => ?_⟩
  · rw [hd, bytesFrom_of_none hcut, takeByte_nil, Parsed.andThen_error]
  · rw [bytesFrom_of_read hv, takeByte_cons, Parsed.andThen_ok] at hd
    have hlen : k + 1 = (Instr.movRm8Imm8 f v).length := by rw [length_movRm8Imm8]; omega
    exact hlen ▸ runs_of_decode hs hp hd (instrValue_movRm8Imm8 f v)

/-- Settles O26: at the immediate the decoder takes two bytes; they are fewer than two, or the value with its low byte first. -/
theorem movRm16Imm16DecodesAndEmits : Obligations.MovRm16Imm16DecodesAndEmits := by
  intro s hs h1
  have hp : s.pos < s.len := (State.readByte_some_iff.1 h1).1
  refine immRm_clauses hs (by decide) h1 fun f k n hk hd => ?_
  rw [readImmediate_word] at hd
  refine ⟨fun hcut => truncates_of_decode hs hp ?_, fun lo hi hlo hhi => ?_⟩
  · rw [hd, takeWord_eq_error.2 ⟨bytesFrom_length_lt_two_of_none (p := s.pos + k) hcut _, rfl⟩, Parsed.andThen_error]
  · rw [bytesFrom_of_two_reads hlo hhi, takeWord_cons, Parsed.andThen_ok] at hd
    have hlen : k + 2 = (Instr.movRm16Imm16 f (joinBytes hi lo)).length := by rw [length_movRm16Imm16]; omega
    rw [← joinBytes_eq_ofNat_pair]
    exact hlen ▸ runs_of_decode hs hp hd (instrValue_movRm16Imm16 f lo hi)

end Sys2Proof.Machine
end

section
/-! PROOF. The canonical text of operands and lines (`47_driver_and_output.md` R183, R185, R186): decimal numerals by their last digit,
hexadecimal digits, and the parts of a memory operand. -/

namespace Sys2Proof.Machine

open Sys2Proof.Claims

/-! ## Decimal numerals -/

theorem digit_value : ∀ n < 10, (digit n).toNat - '0'.toNat = n := by
  decide

theorem digit_bounds : ∀ n < 10, '0' ≤ digit n ∧ digit n ≤ '9' := by
  decide

theorem decimalValue_append_digit (text : List Char) {n : Nat} (h : n < 10) :
    decimalValue (text ++ [digit n]) = decimalValue text * 10 + n := by
  rw [decimalValue, List.foldl_append, List.foldl_cons, List.foldl_nil, digit_value n h, decimalValue]

theorem isDecimalOf_digit {n : Nat} (h : n < 10) : IsDecimalOf [digit n] n := by
  refine ⟨?_, fun c hc => List.mem_singleton.1 hc ▸ digit_bounds n h, by simp, fun hhead => ?_⟩
  · exact (decimalValue_append_digit [] h).trans (by simp [decimalValue])
  · rw [Option.some.inj hhead]

/-- A numeral of a number that is not zero, with one more digit. -/
theorem isDecimalOf_append_digit {text : List Char} {m n : Nat} (h : IsDecimalOf text m) (hm : m ≠ 0) (hn : n < 10) :
    IsDecimalOf (text ++ [digit n]) (m * 10 + n) := by
  obtain ⟨hvalue, hdigits, hne, hzero⟩ := h
  refine ⟨by rw [decimalValue_append_digit text hn, hvalue], fun c hc => ?_, by simp, fun hhead => ?_⟩
  · rcases List.mem_append.1 hc with hc | hc
    · exact hdigits c hc
    · exact List.mem_singleton.1 hc ▸ digit_bounds n hn
  · rw [List.head?_append_of_ne_nil _ hne] at hhead
    rw [hzero hhead] at hvalue
    exact absurd hvalue.symm hm

/-- The digits written last stand behind those still to be written. -/
theorem decimalAux_append (fuel n : Nat) (acc : List Char) : decimalAux fuel n acc = decimalAux fuel n [] ++ acc := by
  induction fuel generalizing n acc with
  | zero => rfl
  | succ fuel ih =>
    rw [decimalAux, decimalAux]
    split_ifs
    · rfl
    · rw [ih _ (_ :: acc), ih _ [_], List.append_assoc, List.singleton_append]

theorem isDecimalOf_decimalAux {fuel n : Nat} (h : n < fuel) : IsDecimalOf (decimalAux fuel n []) n := by
  induction fuel generalizing n with
  | zero => omega
  | succ fuel ih =>
    rw [decimalAux]
    split_ifs with hn
    · exact isDecimalOf_digit hn
    · rw [decimalAux_append]
      have hlast := isDecimalOf_append_digit (ih (n := n / 10) (by omega)) (by omega) (Nat.mod_lt n (by decide : 0 < 10))
      rwa [Nat.div_add_mod'] at hlast

theorem isDecimalOf_decimal (n : Nat) : IsDecimalOf (decimal n) n :=
  isDecimalOf_decimalAux (Nat.lt_succ_self n)

/-- Settles O51: digit by digit from the last, `decimal` is the numeral. -/
theorem immediateTextIsUnsignedDecimal : Obligations.ImmediateTextIsUnsignedDecimal :=
  fun v _ => isDecimalOf_decimal v.toNat

/-! ## Hexadecimal digits -/

theorem digit_mem_hexDigits : ∀ n < 16, digit n ∈ hexDigits ∧ hexDigits.idxOf (digit n) = n := by
  decide

/-- Settles O52: the four digits of `hex4`, whose values are the address's base-16 digits. -/
theorem directAddressTextIsFourHexDigits : Obligations.DirectAddressTextIsFourHexDigits := by
  intro a
  have ha := a.isLt
  obtain ⟨h3, i3⟩ := digit_mem_hexDigits (a.toNat / 4096) (by omega)
  obtain ⟨h2, i2⟩ := digit_mem_hexDigits (a.toNat / 256 % 16) (by omega)
  obtain ⟨h1, i1⟩ := digit_mem_hexDigits (a.toNat / 16 % 16) (by omega)
  obtain ⟨h0, i0⟩ := digit_mem_hexDigits (a.toNat % 16) (by omega)
  refine ⟨_, _, _, _, h3, h2, h1, h0, rfl, ?_⟩
  rw [i3, i2, i1, i0]
  omega

/-! ## Memory operands -/

theorem renderComponents_eq_intercalate (rs : List RegisterName) :
    renderComponents rs = List.intercalate " + ".toList (rs.map renderRegister) := by
  induction rs with
  | nil => rfl
  | cons r rs ih =>
    cases rs with
    | nil => simp [renderComponents]
    | cons r' rs =>
      rw [List.map_cons, List.map_cons, List.intercalate_cons_cons, ← List.map_cons, ← ih]
      rfl

theorem renderOperand_mem (row : Nat) (d : Option Int) :
    renderOperand (mem row d) = "[".toList ++ List.intercalate " + ".toList ((baseRows.getD row []).map renderRegister) ++
      renderDisplacement d ++ "]".toList := by
  rw [← renderComponents_eq_intercalate]
  rfl

theorem renderDisplacement_zero : renderDisplacement (some 0) = [] := rfl

theorem renderDisplacement_pos {d : Int} (h : 0 < d) : renderDisplacement (some d) = " + ".toList ++ decimal d.toNat := by
  rw [renderDisplacement, if_neg h.ne', if_pos h]
  rfl

theorem renderDisplacement_neg {d : Int} (h : d < 0) : renderDisplacement (some d) = " - ".toList ++ decimal (-d).toNat := by
  rw [renderDisplacement, if_neg h.ne, if_neg h.not_gt]
  rfl

/-- Settles O53: the displacement's text by its sign. -/
theorem memoryTextJoinsComponents : Obligations.MemoryTextJoinsComponents := by
  intro row d _ names
  refine ⟨?_, ?_, fun hd => ⟨_, ?_, isDecimalOf_decimal _⟩, fun hd => ⟨_, ?_, isDecimalOf_decimal _⟩⟩
  · rw [renderOperand_mem, renderDisplacement, List.append_nil]
  · rintro rfl
    rw [renderOperand_mem, renderDisplacement_zero, List.append_nil]
  · rw [renderOperand_mem, renderDisplacement_pos hd, ← List.append_assoc]
  · rw [renderOperand_mem, renderDisplacement_neg hd, ← List.append_assoc]

/-! ## The line -/

theorem render_toList (i : Instruction) : (render i).toList = renderChars i :=
  String.toList_ofList

/-- Settles O54: the line is its characters, in the order of the statement. -/
theorem linePutsTheDestinationFirst : Obligations.LinePutsTheDestinationFirst := by
  intro dst src
  rw [render_toList]
  rfl

end Sys2Proof.Machine
end

section
/-! PROOF. The effective-address table and the first bytes (`40_bitfield_and_tables.md` R98 to R100, `30_encoding.md` R71, R72). -/

namespace Sys2Proof.Machine

open Sys2Proof.Claims

/-- The direct-address test on the fields as numbers. -/
theorem direct_fields_iff (mod : BitVec 2) (rm : BitVec 3) : mod.toNat = 0 ∧ rm.toNat = 6 ↔ mod = 0 ∧ rm = 6 := by
  rw [← BitVec.toNat_inj (x := mod), ← BitVec.toNat_inj (x := rm)]
  rfl

/-- Settles O3: the rows by code; the predicate and the two-argument form by the test on the fields. -/
theorem effectiveAddressTableEntries : Obligations.EffectiveAddressTableEntries := by
  refine ⟨baseRows_getElem?, fun mod rm => ?_, fun mod rm => ?_⟩
  · rw [direct_fields_iff]
    simp [isDirectAddress]
  · rw [eaLookup_eq, if_congr (direct_fields_iff mod rm) rfl rfl]

/-- The five ranges as numbers. -/
theorem inUnsupportedRange_iff (b : Byte) :
    inUnsupportedRange b = true ↔ b.toNat ≤ 0x87 ∨ (0x8C ≤ b.toNat ∧ b.toNat ≤ 0x9F) ∨ (0xA4 ≤ b.toNat ∧ b.toNat ≤ 0xAF) ∨
      (0xC0 ≤ b.toNat ∧ b.toNat ≤ 0xC5) ∨ 0xC8 ≤ b.toNat := by
  simp [inUnsupportedRange, BitVec.le_def, or_assoc]

/-- Settles O5: the count runs over the 256 bytes, the ranges are those of the last row. -/
theorem twentySixFirstBytesAreAccepted : Obligations.TwentySixFirstBytesAreAccepted :=
  ⟨by decide, fun b => (classify_eq_none_iff b).trans (inUnsupportedRange_iff b)⟩

end Sys2Proof.Machine
end
